-- ==== Sys2Proof/Word.lean ====
section
/-! DEFINITION. The two word types of the machine: a byte (a memory cell, a register, an opcode, an operand)
and the 9-bit word of the program counter and of the fault record. Nothing in this machine is signed (R6). -/

namespace Sys2Proof

/-- An 8-bit cell, register, opcode byte or operand byte, read as an unsigned integer 0 to 255 (R6, R10, R11). -/
abbrev Byte := BitVec 8

/-- The 9-bit word of `pc`, `fault_pc` and `fault_info` (R13, R18). -/
abbrev PcWord := BitVec 9

/-- The index of one of the eight general registers, 0 to 7 (R11). -/
abbrev RegIndex := Fin 8

end Sys2Proof
end

