-- ==== Sys2Proof/Syntax.lean ====
section
/-! DEFINITION. The six instructions of the opcode map (R55), the operand formats (R50) and the kinds the
decoder tells apart (R73, R137). An operand that names a register is the WHOLE operand byte (R53): a byte above
7 is a form the machine executes, by raising InvalidRegister, so the syntax holds it. -/

namespace Sys2Proof

/-- One instruction: one constructor per row of the opcode table (R55), with its raw operand bytes (R52). -/
inductive Instr where
  /-- HLT, format Z (R90). -/
  | hlt
  /-- LDI r, imm, format RI: `r` at pc + 1, `imm` at pc + 2 (R95). -/
  | ldi (r imm : Byte)
  /-- PRN r, format R (R96). -/
  | prn (r : Byte)
  /-- MUL a, b, format RR: `a` at pc + 1, `b` at pc + 2 (R109). -/
  | mul (a b : Byte)
  /-- PUSH r, format R (R121). -/
  | push (r : Byte)
  /-- POP r, format R (R122). -/
  | pop (r : Byte)
  deriving DecidableEq, Repr

/-- The four instruction formats (R50). -/
inductive Format where
  /-- No operand byte. -/
  | z
  /-- One register operand. -/
  | r
  /-- A register operand and an immediate. -/
  | ri
  /-- Two register operands. -/
  | rr
  deriving DecidableEq, Repr

/-- What the decoder makes of an opcode byte: one of the six instructions, or UNKNOWN (R73, R137). -/
inductive Kind where
  | unknown
  | hlt
  | ldi
  | prn
  | mul
  | push
  | pop
  deriving DecidableEq, Repr

/-- A row of the opcode map (R55). -/
structure OpcodeRow where
  kind : Kind
  opcode : Byte
  format : Format
  deriving DecidableEq, Repr

/-- What decoding three latched bytes gives: an instruction, or the unknown opcode byte (R56, R73). -/
inductive Decoded where
  | known (i : Instr)
  | unknown (opcode : Byte)
  deriving DecidableEq, Repr

/-- Why a list of bytes is not an instruction. -/
inductive DecodeError where
  /-- There is no opcode byte at all. -/
  | noOpcode
  /-- The first byte is none of the six opcodes (R56); the machine skips it with a diagnostic, a safe rejection. -/
  | unknownOpcode (opcode : Byte)
  /-- The instruction needs the operand byte at this offset (1 or 2) and the list ends before it (R75). -/
  | missingOperand (offset : Nat)
  deriving DecidableEq, Repr

end Sys2Proof
end

