-- ==== Sys2Proof/Decode.lean ====
section
/-! DEFINITION. The instruction decoder and the encoder, both written from the opcode map of R55. The decoder
compares all eight bits of the opcode byte (R51) and is total: a byte that is none of the six opcodes is
UNKNOWN by name (R56). -/

namespace Sys2Proof

/-- The complete opcode map (R55, R21). -/
def opcodeTable : List OpcodeRow :=
  [ ⟨.hlt,  0b00000001#8, .z⟩,
    ⟨.ldi,  0b10000010#8, .ri⟩,
    ⟨.prn,  0b01000111#8, .r⟩,
    ⟨.mul,  0b10100010#8, .rr⟩,
    ⟨.push, 0b01000101#8, .r⟩,
    ⟨.pop,  0b01000110#8, .r⟩ ]

/-- `decode(byte)`: the row whose opcode equals the byte, or UNKNOWN if there is none (R55, R73). -/
def kindOf (ir : Byte) : Kind :=
  match opcodeTable.find? (fun row => row.opcode == ir) with
  | some row => row.kind
  | none => .unknown

/-- How many operand bytes a format uses (R50, R52). -/
def Format.nOps : Format → Nat
  | .z => 0
  | .r => 1
  | .ri => 2
  | .rr => 2

/-- `n_ops`: the operand bytes a kind uses (R73); UNKNOWN uses none. -/
def Kind.nOps : Kind → Nat
  | .unknown => 0
  | .hlt => Format.nOps .z
  | .ldi => Format.nOps .ri
  | .prn => Format.nOps .r
  | .mul => Format.nOps .rr
  | .push => Format.nOps .r
  | .pop => Format.nOps .r

/-- `len` = 1 + `n_ops`, a function of the opcode byte alone (R58, R73). -/
def Kind.len (k : Kind) : Nat := 1 + k.nOps

/-- The kind an instruction is of. -/
def Instr.kind : Instr → Kind
  | .hlt => .hlt
  | .ldi _ _ => .ldi
  | .prn _ => .prn
  | .mul _ _ => .mul
  | .push _ => .push
  | .pop _ => .pop

/-- The length of an instruction in bytes (R50, R55). -/
def Instr.len (i : Instr) : Nat := i.kind.len

/-- Decode the three latched bytes: the opcode byte chooses the instruction, and each format takes the operand
bytes it uses; a byte the format does not use is never interpreted (R52, R73). -/
def decode (ir opa opb : Byte) : Decoded :=
  match kindOf ir with
  | .unknown => .unknown ir
  | .hlt => .known .hlt
  | .ldi => .known (.ldi opa opb)
  | .prn => .known (.prn opa)
  | .mul => .known (.mul opa opb)
  | .push => .known (.push opa)
  | .pop => .known (.pop opa)

/-- Decode the front of a list of bytes, opcode first (R33), and give the instruction with the bytes after it.
An operand byte the list does not hold is no operand: the error names its offset (R75). -/
def decodeBytes : List Byte → Except DecodeError (Instr × List Byte)
  | [] => .error .noOpcode
  | ir :: rest =>
    match decode ir (rest.getD 0 0#8) (rest.getD 1 0#8) with
    | .unknown op => .error (.unknownOpcode op)
    | .known i =>
      if i.kind.nOps ≤ rest.length then .ok (i, rest.drop i.kind.nOps)
      else .error (.missingOperand (rest.length + 1))

/-- Byte `k` of an instruction numbered as the opcode table numbers it: the first byte is bits 7:0 of `w`, and
bits at or above `nbits` are zero. -/
def tableByte (nbits w k : Nat) : Byte := BitVec.ofNat 8 (w % 2 ^ nbits / 2 ^ (8 * k))

/-- The bytes of an instruction numbered as the opcode table numbers it, up to the longest instruction (R50). -/
def tableBytes (nbits w : Nat) : List Byte :=
  [tableByte nbits w 0, tableByte nbits w 1, tableByte nbits w 2]

/-- The instruction the decoder reads from a word numbered as the opcode table numbers it. -/
def decodeTableWord (nbits w : Nat) : Option Instr :=
  match decodeBytes (tableBytes nbits w) with
  | .ok (i, _) => some i
  | .error _ => none

/-- The bytes of an instruction, in memory order (R50, R55, R59). -/
def encode : Instr → List Byte
  | .hlt => [0x01#8]
  | .ldi r imm => [0x82#8, r, imm]
  | .prn r => [0x47#8, r]
  | .mul a b => [0xA2#8, a, b]
  | .push r => [0x45#8, r]
  | .pop r => [0x46#8, r]

end Sys2Proof
end

