-- ==== Sys2Proof/Config.lean ====
section
/-! DEFINITION. The implementation parameters of R5. The spec fixes every one of them, and it leaves no value
open (R9: "Nothing in the machine is a draw or an oracle answer"), so this file holds no free value. -/

namespace Sys2Proof

/-- MEM_SIZE (R5): the number of memory cells, at addresses 0 to 255. -/
abbrev Config.memSize : Nat := 256

/-- NUM_REGS (R5): the number of general registers. -/
abbrev Config.numRegs : Nat := 8

/-- SP_INDEX (R5, R12): the register that is the stack pointer. -/
abbrev Config.spIndex : RegIndex := 7

/-- SP_INIT (R5, R12): the reset value of register 7, and the bound of the POP fault (R123). -/
abbrev Config.spInit : Byte := 0xF4#8

/-- PC_INIT (R5, R13): the reset value of `pc`. -/
abbrev Config.pcInit : PcWord := 0#9

/-- LOAD_BASE (R5, R36): the address of the first byte of the program image. -/
abbrev Config.loadBase : Nat := 0

/-- MAX_INSTR_LEN (R5, R50): the bytes of the longest instruction. -/
abbrev Config.maxInstrLen : Nat := 3

/-- HAS_STOP (R5, R179): there is no external cancellation signal. -/
abbrev Config.hasStop : Bool := false

/-- What a memory cell holds at reset (R10, R25): every cell is 0x00. -/
abbrev Config.memReset : Byte := 0x00#8

end Sys2Proof
end

