-- ==== Sys2Proof/Machine/State.lean ====
section
/-! DEFINITION. The whole state of the machine (R25), the reset state, and the reasons a step could stop. -/

namespace Sys2Proof.Machine

/-- The lifecycle `state` of the sequencer (R17). `running` is (`state` = Running) (R16). -/
inductive Status where
  /-- Constructed, nothing loaded. -/
  | idle
  /-- A program is in memory, `pc` = 0. -/
  | loaded
  /-- Executing instructions. -/
  | running
  /-- HLT was executed; terminal. -/
  | halted
  /-- A fatal fault was raised; terminal, the fault record is valid. -/
  | faulted
  deriving DecidableEq, Repr

/-- `fault_code` (R18, R160). -/
inductive FaultCode where
  /-- Code 0, None: no fault. -/
  | noFault
  /-- Code 1 (R161). -/
  | outOfBounds
  /-- Code 2 (R162). -/
  | invalidRegister
  /-- Code 3 (R163). -/
  | stackFault
  /-- Code 4 (R164); no program reaches it. -/
  | unsupportedOperation
  deriving DecidableEq, Repr

/-- The fault record: three fields written together when a fatal fault is raised, never otherwise (R18). -/
structure FaultRecord where
  code : FaultCode
  pc : PcWord
  info : PcWord
  deriving DecidableEq, Repr

/-- One diagnostic: the `pc` of an unknown-opcode step and the opcode byte (R20, R74). -/
structure Diag where
  pc : PcWord
  opcode : Byte
  deriving DecidableEq, Repr

/-- The fetch unit's three byte latches and two availability bits (R24, R25). -/
structure FetchLatch where
  ir : Byte
  opa : Byte
  opb : Byte
  opaAvail : Bool
  opbAvail : Bool
  deriving DecidableEq, Repr

/-- The state of the machine: every row of R25's table (`running` is derived from `status`, R16). -/
structure State where
  /-- `M[0..255]` (R10): the cells that do not hold the reset value, by rising address. -/
  mem : List Host.Cell
  /-- `x[0..7]` (R11); `x[7]` is the stack pointer (R12). -/
  regs : Vector Byte 8
  /-- The program counter, 0 to 256 (R13). -/
  pc : PcWord
  /-- The lifecycle state (R17). -/
  status : Status
  /-- The fault record (R18). -/
  fault : FaultRecord
  /-- The trace `OUT`, oldest byte first (R20). -/
  out : List Byte
  /-- The trace `DIAG`, oldest first (R20). -/
  diag : List Diag
  /-- The fetch latches (R24). -/
  latch : FetchLatch
  deriving DecidableEq, Repr

/-- Why the machine stops with a fault of the host interface: never. Every fatal fault of this machine (R160) has an
entry the spec describes, so it is a NEXT state with `status` = Faulted and the record written (R169), and a step
outside Running changes nothing (R70); no definition of the model raises a `Fault`, so the type has no
constructor. -/
inductive Fault where
  deriving DecidableEq, Repr

/-- Why an instruction has no meaning in this model. -/
inductive Refusal where
  /-- Raised only by a dispatch arm without a meaning; no arm of this model is such an arm. Safe: nothing can be
  proved of an instruction that is refused. -/
  | notModelled (mnemonic : String)
  deriving DecidableEq, Repr

/-- What a step or an instruction's meaning answers. -/
abbrev StepOutcome := Host.Outcome State Fault Refusal

/-- The machine right after reset: every value is R25's. -/
def State.reset : State where
  mem := []
  regs := #v[0x00#8, 0x00#8, 0x00#8, 0x00#8, 0x00#8, 0x00#8, 0x00#8, Config.spInit]
  pc := Config.pcInit
  status := .idle
  fault := { code := .noFault, pc := 0#9, info := 0#9 }
  out := []
  diag := []
  latch := { ir := 0x00#8, opa := 0x00#8, opb := 0x00#8, opaAvail := false, opbAvail := false }

end Sys2Proof.Machine
end

