-- ==== Sys2Proof/Machine/Ops.lean ====
section
/-! DEFINITION. The primitives every rule is built from (R6, R7): memory, registers, `pc`, the two traces, and
taking a fault. There is NO return from a fault and no return-from-trap instruction (R171): the only way out of
Faulted is the host's reset, `Machine.hostReset` in Lifecycle.lean. -/

namespace Sys2Proof.Machine

/-- `M[a]`: a cell that is not listed holds its reset value (R10, R25). -/
def Memory.read : List Host.Cell → Nat → Byte
  | [], _ => Config.memReset
  | (b, w) :: rest, a => if a = b then w else Memory.read rest a

/-- `M[a] <- v`, keeping the list sorted and free of cells at the reset value. -/
def Memory.write : List Host.Cell → Nat → Byte → List Host.Cell
  | [], a, v => if v = Config.memReset then [] else [(a, v)]
  | (b, w) :: rest, a, v =>
    if a < b then
      if v = Config.memReset then (b, w) :: rest else (a, v) :: (b, w) :: rest
    else if a = b then
      if v = Config.memReset then rest else (a, v) :: rest
    else (b, w) :: Memory.write rest a v

/-- Store bytes at ascending addresses from `a`. -/
def Memory.writeAll : List Host.Cell → Nat → List Byte → List Host.Cell
  | m, _, [] => m
  | m, a, v :: vs => Memory.writeAll (Memory.write m a v) (a + 1) vs

/-- The canonical form: addresses strictly rise and are 0 to 255 (R10, R30), and no cell is listed at its reset
value. -/
def Memory.wf : List Host.Cell → Bool
  | [] => true
  | (a, v) :: rest =>
    (decide (a < Config.memSize) && decide (v ≠ Config.memReset) && rest.all fun c => decide (a < c.1))
      && Memory.wf rest

/-- A fatal fault being raised, with its datum (R6, R161 to R164). -/
inductive Raise where
  /-- An address outside 0 to 255. -/
  | outOfBounds (address : Nat)
  /-- A register operand byte outside 0 to 7. -/
  | invalidRegister (index : Byte)
  /-- The stack pointer that PUSH or POP cannot move from. -/
  | stackFault (sp : Byte)
  /-- An ALU operation that is neither ADD nor MUL. -/
  | unsupportedOperation (op : BitVec 2)
  deriving DecidableEq, Repr

/-- The `fault_code` of a raised fault (R160). -/
def Raise.code : Raise → FaultCode
  | .outOfBounds _ => .outOfBounds
  | .invalidRegister _ => .invalidRegister
  | .stackFault _ => .stackFault
  | .unsupportedOperation _ => .unsupportedOperation

/-- The `fault_info` of a raised fault: the datum, zero-extended to 9 bits (R18, R161 to R164). -/
def Raise.info : Raise → PcWord
  | .outOfBounds a => BitVec.ofNat 9 a
  | .invalidRegister b => b.setWidth 9
  | .stackFault sp => sp.setWidth 9
  | .unsupportedOperation op => op.setWidth 9

/-- Taking a fatal fault (R169), given the state the step began in: the record is written (`fault_pc` = `pc`), the
machine is Faulted, and every register, memory cell, `pc`, `OUT` and `DIAG` keep their values. Control goes
nowhere: there is no handler and no vector. -/
def takeFault (r : Raise) (s : State) : State :=
  { s with status := .faulted, fault := { code := r.code, pc := s.pc, info := r.info } }

/-- The end of an execute rule begun in `s`: its new state, or the fault it raised, which undoes the whole rule
(R6 "raise", R169). -/
def complete (s : State) : Except Raise State → StepOutcome
  | .ok t => .next t
  | .error r => .next (takeFault r s)

/-- `MemRead(a, 1)` (R6, R31). -/
def memRead (a : Nat) (s : State) : Except Raise Byte :=
  if a < Config.memSize then .ok (Memory.read s.mem a) else .error (.outOfBounds a)

/-- `MemWrite(a, 1, v)` (R6, R31). -/
def memWrite (a : Nat) (v : Byte) (s : State) : Except Raise State :=
  if a < Config.memSize then .ok { s with mem := Memory.write s.mem a v } else .error (.outOfBounds a)

/-- `x[i]` (R6). No register is hard-wired (R11). -/
def State.reg (s : State) (i : RegIndex) : Byte := s.regs[i.val]

/-- `x[i] <- v` (R6). -/
def State.setReg (s : State) (i : RegIndex) (v : Byte) : State :=
  { s with regs := s.regs.set i.val v }

/-- `SP`, another name for `x[7]` (R6, R12). -/
def State.sp (s : State) : Byte := s.reg Config.spIndex

/-- `SP <- v` (R6, R12). -/
def State.setSp (s : State) (v : Byte) : State := s.setReg Config.spIndex v

/-- `pc <- pc + n`, the sequencer's advance by the instruction's length (R77); the sum is 9 bits wide (R140). -/
def State.advance (s : State) (n : Nat) : State := { s with pc := BitVec.ofNat 9 (s.pc.toNat + n) }

/-- `emit PRN(v)` (R6). -/
def State.emitPrn (s : State) (v : Byte) : State := { s with out := s.out ++ [v] }

/-- `emit Diag(UnknownOpcode, p, b)` (R6). -/
def State.emitDiag (s : State) (p : PcWord) (b : Byte) : State := { s with diag := s.diag ++ [⟨p, b⟩] }

/-- `running` = (`state` = Running) (R16). -/
def State.isRunning (s : State) : Bool := decide (s.status = .running)

/-- The 3-bit code of the sequencer's `state` output (R17). -/
def Status.code : Status → BitVec 3
  | .idle => 0#3
  | .loaded => 1#3
  | .running => 2#3
  | .halted => 3#3
  | .faulted => 4#3

/-- The 3-bit code of `fault_code` (R18, R160). -/
def FaultCode.code : FaultCode → BitVec 3
  | .noFault => 0#3
  | .outOfBounds => 1#3
  | .invalidRegister => 2#3
  | .stackFault => 3#3
  | .unsupportedOperation => 4#3

end Sys2Proof.Machine
end

