-- ==== Sys2Proof/Machine/Flags.lean ====
section
/-! DEFINITION. The ALU (R105 to R108, R110, R139). There are NO flags, condition codes or carries to compute (R22):
the ALU's only outputs are the value `y` and the bit `unsupported`. -/

namespace Sys2Proof.Machine

/-- `alu_op` 0, ADD: reachable at the unit's ports only (R105, R107). -/
def aluOpAdd : BitVec 2 := 0#2

/-- `alu_op` 1, MUL (R105). -/
def aluOpMul : BitVec 2 := 1#2

/-- The ALU's outputs (R139). -/
structure AluOut where
  y : Byte
  unsupported : Bool
  deriving DecidableEq, Repr

/-- `alu_add(a, b)` = (a + b) mod 256; the carry is recorded nowhere (R107). -/
def aluAdd (a b : Byte) : Byte := BitVec.ofNat 8 (a.toNat + b.toNat)

/-- `alu_mul(a, b)` = (a × b) mod 256; the high half of the product is recorded nowhere (R106). -/
def aluMul (a b : Byte) : Byte := BitVec.ofNat 8 (a.toNat * b.toNat)

/-- The combinational ALU (R139): codes 2 and 3 assert `unsupported` and give `y` = 0 (R108). -/
def alu (op : BitVec 2) (a b : Byte) : AluOut :=
  if op = aluOpAdd then { y := aluAdd a b, unsupported := false }
  else if op = aluOpMul then { y := aluMul a b, unsupported := false }
  else { y := 0x00#8, unsupported := true }

/-- The ALU as an execute rule uses it: an unsupported operation raises UnsupportedOperation (R108, R164). -/
def aluApply (op : BitVec 2) (a b : Byte) : Except Raise Byte :=
  if (alu op a b).unsupported then .error (.unsupportedOperation op) else .ok (alu op a b).y

end Sys2Proof.Machine
end

