-- ==== Sys2Proof/Machine/Operands.lean ====
section
/-! DEFINITION. The operand forms (R50 to R54): a needed operand byte must lie in memory (R75), a register operand
is the whole byte (R53), the immediate of LDI is the whole byte (R54). The single addressing mode, register-indirect
through SP with pre-decrement and post-increment (R120), is written in Stack.lean. -/

namespace Sys2Proof.Machine

/-- `need`: the operand byte at `pc + k` must be an address of memory, else OutOfBounds at that address (R75). The
address is exact: nothing wraps (R31, R110). -/
def needByte (k : Nat) (s : State) : Except Raise Unit :=
  if s.pc.toNat + k < Config.memSize then .ok () else .error (.outOfBounds (s.pc.toNat + k))

/-- `RegIdx(b)`: the register the operand byte names, or InvalidRegister; no bit is masked off (R6, R53). -/
def regIdx (b : Byte) : Except Raise RegIndex :=
  if h : b.toNat < 8 then .ok ⟨b.toNat, h⟩ else .error (.invalidRegister b)

/-- The immediate of LDI: the operand byte unchanged, not extended, scaled or shifted (R54). -/
def immediate (b : Byte) : Byte := b

end Sys2Proof.Machine
end

