-- ==== Sys2Proof/Machine/Arith.lean ====
section
/-! DEFINITION. ALU family: MUL (R109). -/

namespace Sys2Proof.Machine

/-- MUL a, b: `x[a] <- alu_mul(x[a], x[b])`, both operands read before the write (R109). -/
def execMul (a b : Byte) (s : State) : StepOutcome :=
  complete s do
    needByte 1 s
    needByte 2 s
    let ra ← regIdx a
    let rb ← regIdx b
    let y ← aluApply aluOpMul (s.reg ra) (s.reg rb)
    return (s.setReg ra y).advance 3

end Sys2Proof.Machine
end

