-- ==== Sys2Proof/Machine/Control.lean ====
section
/-! DEFINITION. Control family: HLT (R90). There is no branch, jump, call or return (R78). -/

namespace Sys2Proof.Machine

/-- HLT: `state <- Halted`; `pc` stays at the HLT byte (R90). -/
def execHlt (s : State) : StepOutcome := complete s (.ok { s with status := .halted })

end Sys2Proof.Machine
end

