-- ==== Sys2Proof/Machine/Data.lean ====
section
/-! DEFINITION. Data family: LDI (R95), PRN (R96). -/

namespace Sys2Proof.Machine

/-- LDI r, imm: `x[r] <- imm` (R95). Register 7 is an ordinary destination (R12). -/
def execLdi (r imm : Byte) (s : State) : StepOutcome :=
  complete s do
    needByte 1 s
    needByte 2 s
    let i ← regIdx r
    return (s.setReg i (immediate imm)).advance 3

/-- PRN r: `emit PRN(x[r])` (R96). -/
def execPrn (r : Byte) (s : State) : StepOutcome :=
  complete s do
    needByte 1 s
    let i ← regIdx r
    return (s.emitPrn (s.reg i)).advance 2

end Sys2Proof.Machine
end

