-- ==== Sys2Proof/Machine/Stack.lean ====
section
/-! DEFINITION. Stack family: PUSH (R121, R124) and POP (R122, R123, R125): the machine's only store and only load.
Each effect is the sequence the rule writes, a later part seeing an earlier part's writes. -/

namespace Sys2Proof.Machine

/-- The stack-pointer check of PUSH: "PUSH when SP would fall below 0" (R121). -/
def pushCheck (s : State) : Except Raise Unit :=
  if s.sp = 0x00#8 then .error (.stackFault s.sp) else .ok ()

/-- The stack-pointer check of POP: the bound is the constant SP_INIT (R123). -/
def popCheck (s : State) : Except Raise Unit :=
  if Config.spInit.toNat ≤ s.sp.toNat then .error (.stackFault s.sp) else .ok ()

/-- `x[7] <- x[7] + 1` after POP's register write; SP = 255 is the fault of `POP R7` (R125). -/
def incrementSp (s : State) : Except Raise State :=
  if s.sp = 0xFF#8 then .error (.stackFault s.sp) else .ok (s.setSp (s.sp + 1#8))

/-- PUSH r: `x[7] <- x[7] - 1`, then `M[x[7]] <- x[r]`, `x[r]` read after the decrement (R121, R124). -/
def execPush (r : Byte) (s : State) : StepOutcome :=
  complete s do
    needByte 1 s
    let i ← regIdx r
    pushCheck s
    let s₁ := s.setSp (s.sp - 1#8)
    let s₂ ← memWrite s₁.sp.toNat (s₁.reg i) s₁
    return s₂.advance 2

/-- POP r: `x[r] <- M[x[7]]`, then `x[7] <- x[7] + 1`; with r = 7 the increment is of the popped byte
(R122, R125). -/
def execPop (r : Byte) (s : State) : StepOutcome :=
  complete s do
    needByte 1 s
    let i ← regIdx r
    popCheck s
    let v ← memRead s.sp.toNat s
    let s₂ ← incrementSp (s.setReg i v)
    return s₂.advance 2

end Sys2Proof.Machine
end

