-- ==== Sys2Proof/Machine/Cycle.lean ====
section
/-! DEFINITION. The instruction cycle (R70 to R82): fetch, decode, the unknown-opcode step, dispatch; and placing an
instruction where the next step fetches it. -/

namespace Sys2Proof.Machine

/-- `M[a]` where `a` is an address of memory, else the byte is unavailable and reads as 0 (R72). -/
def fetchByte (s : State) (a : Nat) : Byte :=
  if a < Config.memSize then Memory.read s.mem a else 0x00#8

/-- What the fetch unit latches at the start of a step: the opcode byte and, eagerly, the two bytes after it, each
marked available when its address is at most 255; no address wraps (R24, R72). -/
def fetchLatch (s : State) : FetchLatch where
  ir := fetchByte s s.pc.toNat
  opa := fetchByte s (s.pc.toNat + 1)
  opb := fetchByte s (s.pc.toNat + 2)
  opaAvail := decide (s.pc.toNat + 1 < Config.memSize)
  opbAvail := decide (s.pc.toNat + 2 < Config.memSize)

/-- The state with the latches filled for the step at `pc` (R24). -/
def State.latched (s : State) : State := { s with latch := fetchLatch s }

/-- The unknown-opcode step: a diagnostic, and `pc` moves by exactly one byte (R57, R74). -/
def unknownStep (opcode : Byte) (s : State) : State := (s.emitDiag s.pc opcode).advance 1

/-- After the opcode fetch: decode the latched bytes and either skip an unknown opcode or execute (R73, R76). -/
def decodeAndRun (s : State) : StepOutcome :=
  match decode s.latch.ir s.latch.opa s.latch.opb with
  | .unknown op => .next (unknownStep op s)
  | .known i => exec i s

/-- One step of the running core (R79, R80): the opcode fetch is the first check (R71). -/
def runningStep (s : State) : StepOutcome :=
  match memRead s.pc.toNat s with
  | .error r => .next (takeFault r s.latched)
  | .ok _ => decodeAndRun s.latched

/-- Outside Running the core fetches nothing and changes nothing (R70, R194). -/
def stillStep (s : State) : StepOutcome := .next s

/-- One step: the core takes a step if and only if `state` = Running (R70). -/
def cycle (s : State) : StepOutcome :=
  match s.status with
  | .idle => stillStep s
  | .loaded => stillStep s
  | .running => runningStep s
  | .halted => stillStep s
  | .faulted => stillStep s

/-- Store bytes at ascending addresses, those that are addresses of memory. -/
def placeBytes : List Host.Cell → Nat → List Byte → List Host.Cell
  | m, _, [] => m
  | m, a, v :: vs =>
    placeBytes (if a < Config.memSize then Memory.write m a v else m) (a + 1) vs

/-- The state with an instruction, numbered as the opcode table numbers it, at the bytes the next step fetches, and
the core Running so that the next step fetches it (R70). It stands for the host's load and start (R192, R193). -/
def placeWord (s : State) (nbits w : Nat) : State :=
  { s with mem := placeBytes s.mem s.pc.toNat (tableBytes nbits w), status := .running }

end Sys2Proof.Machine
end

