-- ==== Sys2Proof/Machine/Units.lean ====
section
/-! DEFINITION. The five units of the core as functions of their ports (R135 to R142) and their composition into one
step (R143). The instruction rules and R80 define the machine; this file is their hardware reading, written from
R136 to R143 alone, and it calls neither `exec` nor `decode`. -/

namespace Sys2Proof.Machine

/-- The outputs of `fetch_unit` (R136). -/
structure FetchOut where
  ir : Byte
  irOob : Bool
  opa : Byte
  opb : Byte
  opaAvail : Bool
  opbAvail : Bool
  deriving DecidableEq, Repr

/-- `fetch_unit` (R136): up to three reads, never at an address above 255. -/
def fetchUnit (pc : PcWord) (mem : List Host.Cell) : FetchOut where
  irOob := decide (pc.toNat = 256)
  ir := if pc.toNat = 256 then 0x00#8 else Memory.read mem pc.toNat
  opaAvail := decide (pc.toNat ≤ 254)
  opa := if pc.toNat ≤ 254 then Memory.read mem (pc.toNat + 1) else 0x00#8
  opbAvail := decide (pc.toNat ≤ 253)
  opb := if pc.toNat ≤ 253 then Memory.read mem (pc.toNat + 2) else 0x00#8

/-- The decoder's outputs (R137): the control word of one opcode byte. -/
structure ControlWord where
  known : Bool
  kind : BitVec 3
  nOps : BitVec 2
  len : BitVec 2
  aIsReg : Bool
  bIsReg : Bool
  bIsImm : Bool
  aluEn : Bool
  aluOp : BitVec 2
  regWe : Bool
  spDec : Bool
  spInc : Bool
  memWe : Bool
  memRe : Bool
  prn : Bool
  halt : Bool
  deriving DecidableEq, Repr

/-- The last row of R137's truth table: any opcode byte that is not listed. -/
def controlUnknown : ControlWord where
  known := false
  kind := 0#3
  nOps := 0#2
  len := 1#2
  aIsReg := false
  bIsReg := false
  bIsImm := false
  aluEn := false
  aluOp := 0#2
  regWe := false
  spDec := false
  spInc := false
  memWe := false
  memRe := false
  prn := false
  halt := false

/-- `instruction_decoder` (R137): the truth table, row by row; each row names the outputs that differ from the last
row's. -/
def instructionDecoder (ir : Byte) : ControlWord :=
  if ir = 0x01#8 then
    { controlUnknown with known := true, kind := 1#3, halt := true }
  else if ir = 0x82#8 then
    { controlUnknown with
      known := true, kind := 2#3, nOps := 2#2, len := 3#2, aIsReg := true, bIsImm := true, regWe := true }
  else if ir = 0x47#8 then
    { controlUnknown with known := true, kind := 3#3, nOps := 1#2, len := 2#2, aIsReg := true, prn := true }
  else if ir = 0xA2#8 then
    { controlUnknown with
      known := true, kind := 4#3, nOps := 2#2, len := 3#2, aIsReg := true, bIsReg := true, aluEn := true,
      aluOp := 1#2, regWe := true }
  else if ir = 0x45#8 then
    { controlUnknown with
      known := true, kind := 5#3, nOps := 1#2, len := 2#2, aIsReg := true, spDec := true, memWe := true }
  else if ir = 0x46#8 then
    { controlUnknown with
      known := true, kind := 6#3, nOps := 1#2, len := 2#2, aIsReg := true, regWe := true, spInc := true,
      memRe := true }
  else controlUnknown

/-- One read port of `register_file` (R138): whether the index is valid, and `x[idx]`, or 0 when it is not. -/
def registerRead (x : Vector Byte 8) (idx : Byte) : Bool × Byte :=
  if h : idx.toNat < 8 then (true, x[idx.toNat]) else (false, 0x00#8)

/-- `sp_data` of `register_file` (R138): `x[7]`, always. -/
def spData (x : Vector Byte 8) : Byte := x[7]

/-- The write-side inputs of `register_file` (R138). -/
structure RegisterWrite where
  reset : Bool
  wEn : Bool
  wIdx : Byte
  wData : Byte
  spWEn : Bool
  spWData : Byte
  commit : Bool
  deriving DecidableEq, Repr

/-- `register_file`'s next registers (R138): the general write first and the stack-pointer write second, both only
when `commit` = 1; an index above 7 writes nothing. -/
def registerFile (w : RegisterWrite) (x : Vector Byte 8) : Vector Byte 8 :=
  if w.reset then State.reset.regs
  else if w.commit then
    let x₁ := if h : w.wEn ∧ w.wIdx.toNat < 8 then x.set w.wIdx.toNat w.wData h.2 else x
    if w.spWEn then x₁.set 7 w.spWData else x₁
  else x

/-- What `program_counter_sequencer` holds (R140). -/
structure Sequencer where
  pc : PcWord
  status : Status
  fault : FaultRecord
  deriving DecidableEq, Repr

/-- The inputs of `program_counter_sequencer` (R140); `faultReq` carries `fault_code_in` and `fault_info_in`. -/
structure SequencerIn where
  reset : Bool
  loadOk : Bool
  start : Bool
  len : BitVec 2
  halt : Bool
  faultReq : Option (FaultCode × PcWord)
  deriving DecidableEq, Repr

/-- The sequencer at the end of a step taken in Running (R140): a fault before a halt before the advance. -/
def sequencerStep (i : SequencerIn) (q : Sequencer) : Sequencer :=
  match i.faultReq with
  | some (code, info) => { q with status := .faulted, fault := { code := code, pc := q.pc, info := info } }
  | none => if i.halt then { q with status := .halted } else { q with pc := q.pc + i.len.setWidth 9 }

/-- `program_counter_sequencer` (R140): its next contents and the `state_error` pulse. Outside Running it changes
only on reset, load_ok and start (R190 to R195). DESIGN CHOICE (log entry 9): where several host inputs come at once,
reset wins, and each other input is judged by the state the sequencer is in. -/
def sequencer (i : SequencerIn) (q : Sequencer) : Sequencer × Bool :=
  if i.reset then
    ({ pc := State.reset.pc, status := State.reset.status, fault := State.reset.fault }, false)
  else
    match q.status with
    | .idle => (if i.loadOk then { q with status := .loaded } else q, i.start)
    | .loaded => (if i.start then { q with status := .running } else q, i.loadOk)
    | .running => (sequencerStep i q, i.loadOk || i.start)
    | .halted => (q, i.loadOk || i.start)
    | .faulted => (q, i.loadOk || i.start)

/-- The memory's write port (R141). -/
def memoryWritePort (en : Bool) (addr data : Byte) (mem : List Host.Cell) : List Host.Cell :=
  if en then Memory.write mem addr.toNat data else mem

/-- The loader's port (R142): a write is accepted only in state Idle. -/
def loaderPort (we : Bool) (addr data : Byte) (s : State) : State :=
  { s with mem := memoryWritePort (we && decide (s.status = .idle)) addr data s.mem }

/-- The fault of a step (R143): the first line that holds, top to bottom. `memRdata` is `M[sp_data]`. -/
def faultRequest (pc : PcWord) (f : FetchOut) (c : ControlWord) (aValid bValid : Bool) (sp memRdata : Byte)
    (unsupported : Bool) : Option (FaultCode × PcWord) :=
  if f.irOob then some (.outOfBounds, 256#9)
  else if c.known ∧ 1 ≤ c.nOps.toNat ∧ ¬ f.opaAvail then some (.outOfBounds, pc + 1#9)
  else if c.known ∧ c.nOps.toNat = 2 ∧ ¬ f.opbAvail then some (.outOfBounds, pc + 2#9)
  else if c.aIsReg ∧ ¬ aValid then some (.invalidRegister, f.opa.setWidth 9)
  else if c.bIsReg ∧ ¬ bValid then some (.invalidRegister, f.opb.setWidth 9)
  else if c.spDec ∧ sp = 0x00#8 then some (.stackFault, 0#9)
  else if c.spInc ∧ 0xF4 ≤ sp.toNat then some (.stackFault, sp.setWidth 9)
  else if c.spInc ∧ f.opa = 7#8 ∧ memRdata = 0xFF#8 then some (.stackFault, 255#9)
  else if c.aluEn ∧ unsupported then some (.unsupportedOperation, c.aluOp.setWidth 9)
  else none

/-- The outward pulses of one step (R142): the PRN value and the diagnostic, each when valid. -/
structure Pulses where
  out : Option Byte
  diag : Option Diag
  deriving DecidableEq, Repr

/-- The control word of a step (R143): forced to UNKNOWN when the opcode fetch is out of bounds. -/
def stepControl (f : FetchOut) : ControlWord :=
  if f.irOob then controlUnknown else instructionDecoder f.ir

/-- The register writes of a step (R143): LDI writes the immediate, MUL the product, POP the popped byte and then SP,
PUSH the decremented SP. -/
def stepRegisterWrite (f : FetchOut) (c : ControlWord) (sp memRdata y : Byte) (commit : Bool) : RegisterWrite where
  reset := false
  wEn := c.regWe
  wIdx := f.opa
  wData := if c.memRe then memRdata else if c.aluEn then y else f.opb
  spWEn := c.spDec || c.spInc
  spWData := if c.spDec then sp - 1#8 else if f.opa = 7#8 then memRdata + 1#8 else sp + 1#8
  commit := commit

/-- The pulses of a step (R143): PRN's is masked by `commit`; an unknown opcode byte that was fetched gives a
diagnostic. -/
def stepPulses (pc : PcWord) (f : FetchOut) (c : ControlWord) (aData : Byte) (commit : Bool) : Pulses where
  out := if c.prn ∧ commit then some aData else none
  diag := if ¬ c.known ∧ ¬ f.irOob then some ⟨pc, f.ir⟩ else none

/-- One step of the five units wired together (R143), for a core in state Running with no host input. -/
def unitsStep (s : State) : State :=
  let f := fetchUnit s.pc s.mem
  let c := stepControl f
  let ra := registerRead s.regs f.opa
  let rb := registerRead s.regs f.opb
  let sp := spData s.regs
  let memRdata := Memory.read s.mem sp.toNat
  let y := alu c.aluOp ra.2 rb.2
  let req := faultRequest s.pc f c ra.1 rb.1 sp memRdata y.unsupported
  let commit := req.isNone
  let pulses := stepPulses s.pc f c ra.2 commit
  let storeData := if f.opa = 7#8 then sp - 1#8 else ra.2
  let q := sequencerStep ⟨false, false, false, c.len, c.halt, req⟩ ⟨s.pc, s.status, s.fault⟩
  { mem := memoryWritePort (commit && c.memWe) (sp - 1#8) storeData s.mem
    regs := registerFile (stepRegisterWrite f c sp memRdata y.y commit) s.regs
    pc := q.pc
    status := q.status
    fault := q.fault
    out := s.out ++ pulses.out.toList
    diag := s.diag ++ pulses.diag.toList
    latch := ⟨f.ir, f.opa, f.opb, f.opaAvail, f.opbAvail⟩ }

end Sys2Proof.Machine
end

