-- ==== Sys2Proof/Machine/Lifecycle.lean ====
section
/-! DEFINITION. The host's side of the machine (R43, R190 to R197, R166): reset, load, start, and the text the host
shows for a PRN value (R97). A command lands between two steps; `step` itself reads no command. -/

namespace Sys2Proof.Machine

/-- What the loader obtained from the source it was given (R166, R192). -/
inductive LoadSource where
  /-- The source could not be read. -/
  | unreadable
  /-- The image: the bytes in file order (R60). -/
  | bytes (image : List Byte)
  deriving DecidableEq, Repr

/-- A host command (R191). -/
inductive Command where
  | reset
  | load (source : LoadSource)
  | start
  deriving DecidableEq, Repr

/-- Why a load failed (R166): LoadError's members. -/
inductive LoadError where
  /-- SourceNotFound: the source could not be read. -/
  | sourceNotFound
  /-- LoadParseEmpty: the source yielded no bytes. -/
  | loadParseEmpty
  /-- The image is longer than memory (R192); the name is this model's. -/
  | imageTooLong
  deriving DecidableEq, Repr

/-- What the host is told (R166, R195). -/
inductive Response where
  | accepted
  /-- The `state_error` pulse: the command is not one for this state (R195). -/
  | stateError
  /-- The load failed; nothing was written (R192). -/
  | loadError (e : LoadError)
  deriving DecidableEq, Repr

/-- The state after a command and what the host is told. -/
structure Reply where
  state : State
  response : Response
  deriving DecidableEq, Repr

/-- Reset, accepted in every state: every piece of state at its value of R25 (R190). -/
def hostReset (_ : State) : Reply := { state := State.reset, response := .accepted }

/-- Why an image cannot be loaded, if it cannot (R166, R192). -/
def imageError (image : List Byte) : Option LoadError :=
  if image.length = 0 then some .loadParseEmpty
  else if Config.memSize < image.length then some .imageTooLong
  else none

/-- The successful load: `M[i] <- img[i]`, and `state` becomes Loaded (R192). -/
def loadImage (image : List Byte) (s : State) : State :=
  { s with mem := Memory.writeAll s.mem Config.loadBase image, status := .loaded }

/-- Load in state Idle: all of the image or nothing (R192). -/
def loadIdle (source : LoadSource) (s : State) : Reply :=
  match source with
  | .unreadable => { state := s, response := .loadError .sourceNotFound }
  | .bytes image =>
    match imageError image with
    | some e => { state := s, response := .loadError e }
    | none => { state := loadImage image s, response := .accepted }

/-- A command refused in the current state: no state changes (R195). -/
def refuseCommand (s : State) : Reply := { state := s, response := .stateError }

/-- Load: accepted in Idle only (R192, R195). -/
def hostLoad (source : LoadSource) (s : State) : Reply :=
  match s.status with
  | .idle => loadIdle source s
  | .loaded => refuseCommand s
  | .running => refuseCommand s
  | .halted => refuseCommand s
  | .faulted => refuseCommand s

/-- Start: accepted in Loaded only; nothing but `state` changes (R193, R195). -/
def hostStart (s : State) : Reply :=
  match s.status with
  | .idle => refuseCommand s
  | .loaded => { state := { s with status := .running }, response := .accepted }
  | .running => refuseCommand s
  | .halted => refuseCommand s
  | .faulted => refuseCommand s

/-- What a host command does (R191). -/
def command (c : Command) (s : State) : Reply :=
  match c with
  | .reset => hostReset s
  | .load source => hostLoad source s
  | .start => hostStart s

/-- The decimal numeral the host shows for a PRN value: no sign, no leading zero, no padding (R97). The line end is
the host's and is not fixed. -/
def prnNumeral (v : Byte) : List Char := Nat.toDigits 10 v.toNat

end Sys2Proof.Machine
end

