-- ==== Sys2Proof/Safety.lean ====
section
/-! DEFINITION. The terms claims use: how a run ends, the invariant of reachable states (R26), runs of instructions
outside memory, and what a frame keeps. -/

namespace Sys2Proof.Machine

/-- A terminal state: only the host's reset leaves it (R171, R194). -/
def Terminal (s : State) : Prop := s.status = .halted ∨ s.status = .faulted

/-- A clean end of a run: HLT was executed and no fault is recorded (R91). -/
def CleanHalt (s : State) : Prop := s.status = .halted ∧ s.fault.code = .noFault

/-- The registers at their reset values and nothing emitted or recorded: what Idle and Loaded keep (R26, R192). -/
def Fresh (s : State) : Prop :=
  s.regs = State.reset.regs ∧ s.pc = State.reset.pc ∧ s.fault = State.reset.fault ∧ s.out = [] ∧ s.diag = []
    ∧ s.latch = State.reset.latch

/-- Memory holds an image of 1 to 256 bytes from the load base, followed by zeros (R26, R192). -/
def HoldsImage (m : List Host.Cell) : Prop :=
  ∃ image : List Byte, 1 ≤ image.length ∧ image.length ≤ 256 ∧
    ∀ a, Memory.read m a = image.getD a 0x00#8

/-- The invariant of every reachable state (R13, R18, R26): `pc` is 0 to 256; memory is in its canonical form; a fault
is recorded exactly when the machine is Faulted, with the `pc` it stopped at, and never UnsupportedOperation; without
one the record is at its reset value; Idle is the reset state; Loaded is fresh over an image. -/
structure Inv (s : State) : Prop where
  pc_le : s.pc.toNat ≤ 256
  mem_wf : Memory.wf s.mem = true
  fault_iff : s.fault.code ≠ .noFault ↔ s.status = .faulted
  fault_pc : s.status = .faulted → s.fault.pc = s.pc
  fault_reachable : s.fault.code ≠ .unsupportedOperation
  fault_clear : s.status ≠ .faulted → s.fault = State.reset.fault
  idle_reset : s.status = .idle → s = State.reset
  loaded_fresh : s.status = .loaded → Fresh s ∧ HoldsImage s.mem

/-- The states the machine and its host can reach from reset (R191). -/
inductive Reachable : State → Prop where
  | reset : Reachable State.reset
  | step {s t : State} : Reachable s → Machine.step s = .next t → Reachable t
  | command {s : State} (c : Command) : Reachable s → Reachable (Machine.command c s).state

/-- Execute instructions one after another, without fetching them. -/
def execAll : List Instr → State → StepOutcome
  | [], s => .next s
  | i :: is, s =>
    match exec i s with
    | .next t => execAll is t
    | .fault f => .fault f
    | .refused r => .refused r

/-- Every byte of memory reads as it did. -/
def SameMem (s t : State) : Prop := ∀ a, Memory.read t.mem a = Memory.read s.mem a

/-- Every register reads as it did. -/
def SameRegs (s t : State) : Prop := ∀ j, t.reg j = s.reg j

/-- The lifecycle state, the fault record and the fetch latches are as they were. -/
def SameControl (s t : State) : Prop := t.status = s.status ∧ t.fault = s.fault ∧ t.latch = s.latch

/-- Nothing was emitted. -/
def SameTraces (s t : State) : Prop := t.out = s.out ∧ t.diag = s.diag

/-- `s` stopped by a fatal fault: the record is written and the machine is Faulted, all else as it was (R169). -/
def stopped (s : State) (code : FaultCode) (info : PcWord) : State :=
  { s with status := .faulted, fault := { code := code, pc := s.pc, info := info } }

/-- The byte of memory `k` places after `pc`; the opcode byte for `k` = 0 (R33). -/
def byteAt (s : State) (k : Nat) : Byte := Memory.read s.mem (s.pc.toNat + k)

/-- The kind of the instruction at `pc` (R73). -/
def kindAt (s : State) : Kind := kindOf (byteAt s 0)

/-- The kinds whose operand a is a register index (R55): all but HLT and UNKNOWN. -/
def takesRegister (k : Kind) : Prop := k ≠ .unknown ∧ k ≠ .hlt

/-- The step at `s` raises a fatal fault with this code and datum: it stops the machine, `fault_pc` is the address of
the opcode (R18, R169). -/
def Faults (s : State) (code : FaultCode) (info : PcWord) : Prop :=
  ∃ t, step s = .next t ∧ t.status = .faulted ∧ t.fault = { code := code, pc := s.pc, info := info }

end Sys2Proof.Machine
end

