-- ==== Sys2Proof/WellFormed.lean ====
section
/-! DEFINITION. When an instruction names only registers that exist: each register operand byte is 0 to 7 (R53).
An instruction that fails the check is still decoded, encoded and executed: it raises InvalidRegister (R162). -/

namespace Sys2Proof

/-- A register operand byte names a register (R53). -/
def regOperandOk (b : Byte) : Bool := b.toNat < Config.numRegs

/-- Every register operand of the instruction names a register (R53, R55). LDI's immediate is any byte (R54). -/
def Instr.wellFormed : Instr → Bool
  | .hlt => true
  | .ldi r _ => regOperandOk r
  | .prn r => regOperandOk r
  | .mul a b => regOperandOk a && regOperandOk b
  | .push r => regOperandOk r
  | .pop r => regOperandOk r

end Sys2Proof
end

