-- ==== Sys2Proof/Certificates/Slice0/Obligations.lean ====
section
/-! DEFINITION. The statements about the machine. Each says which rule of the spec it formalises. -/

open Sys2Proof Sys2Proof.Machine

/-! ### Reset and lifecycle -/

/-- R25: every piece of state at its reset value. -/
def Obligations.ResetLeavesTheTableOfR25 : Prop :=
  (∀ a, Memory.read State.reset.mem a = 0x00#8) ∧ (∀ j : RegIndex, j ≠ 7 → State.reset.reg j = 0x00#8) ∧
  State.reset.reg 7 = 0xF4#8 ∧ State.reset.pc = 0#9 ∧ State.reset.status = .idle ∧ State.reset.isRunning = false ∧
  State.reset.fault = { code := .noFault, pc := 0#9, info := 0#9 } ∧ State.reset.out = [] ∧ State.reset.diag = [] ∧
  State.reset.latch = { ir := 0x00#8, opa := 0x00#8, opb := 0x00#8, opaAvail := false, opbAvail := false }

/-- R190, R194, R171: reset is accepted in every state and gives the reset state; no step and no other command changes
a Halted or Faulted machine. That a step outside Running answers the same state is the model's reading (log entry 1). -/
def Obligations.OnlyResetLeavesATerminalState : Prop :=
  (∀ s, command .reset s = { state := State.reset, response := .accepted }) ∧
  (∀ s, Terminal s → step s = .next s ∧ ∀ c, c ≠ .reset → command c s = { state := s, response := .stateError })

/-- R192, R166: a load in Idle of 1 to 256 bytes writes the image at addresses 0 up, leaves every other cell zero and the
registers and `pc` at their reset values, and makes the machine Loaded; any other load in Idle writes nothing, leaves the
machine Idle and tells the host; a load in any other state is refused. Stated for the states that meet the invariant,
where an Idle machine is the reset machine (R26). -/
def Obligations.LoadIsAllOrNothing : Prop :=
  ∀ s : State, Inv s →
    (∀ image : List Byte, s.status = .idle → 1 ≤ image.length → image.length ≤ 256 →
      ∃ t, command (.load (.bytes image)) s = { state := t, response := .accepted } ∧ t.status = .loaded ∧
        (∀ k, k < image.length → Memory.read t.mem k = image.getD k 0x00#8) ∧
        (∀ a, image.length ≤ a → Memory.read t.mem a = 0x00#8) ∧
        (∀ j, t.reg j = State.reset.reg j) ∧ t.pc = 0#9 ∧ t.fault = s.fault ∧ t.latch = s.latch ∧ SameTraces s t) ∧
    (∀ image : List Byte, s.status = .idle → image.length = 0 ∨ 256 < image.length →
      ∃ e, command (.load (.bytes image)) s = { state := s, response := .loadError e }) ∧
    (s.status = .idle → command (.load .unreadable) s = { state := s, response := .loadError .sourceNotFound }) ∧
    (∀ src, s.status ≠ .idle → command (.load src) s = { state := s, response := .stateError })

/-- R193: start in Loaded makes the machine Running and changes nothing else; in a reachable Loaded state `pc` is 0 and
the registers hold their reset values. -/
def Obligations.StartRunsALoadedMachine : Prop :=
  ∀ s : State, s.status = .loaded →
    command .start s = { state := { s with status := .running }, response := .accepted } ∧
    (Inv s → s.pc = 0#9 ∧ ∀ j, s.reg j = State.reset.reg j)

/-- R195: a start outside Loaded and a load outside Idle change no state and pulse state_error. -/
def Obligations.MisplacedCommandsAreRefused : Prop :=
  ∀ s : State,
    (s.status ≠ .loaded → command .start s = { state := s, response := .stateError }) ∧
    (∀ src, s.status ≠ .idle → command (.load src) s = { state := s, response := .stateError })

/-- R17, R18, R160: the numeric codes of `state` and `fault_code`. -/
def Obligations.StateAndFaultCodesAreNumbered : Prop :=
  [Status.idle, .loaded, .running, .halted, .faulted].map Status.code = [0#3, 1#3, 2#3, 3#3, 4#3] ∧
  [FaultCode.noFault, .outOfBounds, .invalidRegister, .stackFault, .unsupportedOperation].map FaultCode.code =
    [0#3, 1#3, 2#3, 3#3, 4#3]

/-- R97: the numeral shown for a PRN value spells its value in decimal digits and has no leading zero. -/
def Obligations.PrnNumeralIsThePlainDecimalOfTheByte : Prop :=
  ∀ v : Byte, (prnNumeral v).all Char.isDigit = true ∧
    (prnNumeral v).foldl (fun n c => 10 * n + (c.toNat - '0'.toNat)) 0 = v.toNat ∧
    ((prnNumeral v).length = 1 ∨ (prnNumeral v).head? ≠ some '0') ∧ prnNumeral v ≠ []

/-! ### Encoding -/

/-- R55, R51: the complete opcode map, and UNKNOWN for every other byte. -/
def Obligations.OpcodeMapIsComplete : Prop :=
  (∀ a b, decode 0b00000001#8 a b = .known .hlt) ∧ (∀ a b, decode 0b10000010#8 a b = .known (.ldi a b)) ∧
  (∀ a b, decode 0b01000111#8 a b = .known (.prn a)) ∧ (∀ a b, decode 0b10100010#8 a b = .known (.mul a b)) ∧
  (∀ a b, decode 0b01000101#8 a b = .known (.push a)) ∧ (∀ a b, decode 0b01000110#8 a b = .known (.pop a)) ∧
  [Kind.hlt, .ldi, .prn, .mul, .push, .pop].map Kind.len = [1, 3, 2, 3, 2, 2] ∧
  (∀ ir a b, ir ∉ [0x01#8, 0x82#8, 0x47#8, 0xA2#8, 0x45#8, 0x46#8] → decode ir a b = .unknown ir)

/-- R50, R55, R59: a few instructions written out byte by byte from the formats decode to what they stand for, and a byte
outside the map is rejected by name. -/
def Obligations.WrittenOutWordsDecode : Prop :=
  decodeBytes [0x01#8] = .ok (.hlt, []) ∧
  decodeBytes [0x82#8, 0x00#8, 0x08#8] = .ok (.ldi 0x00#8 0x08#8, []) ∧
  decodeBytes [0x47#8, 0x02#8, 0x01#8] = .ok (.prn 0x02#8, [0x01#8]) ∧
  decodeBytes [0xA2#8, 0x00#8, 0x01#8] = .ok (.mul 0x00#8 0x01#8, []) ∧
  decodeBytes [0x45#8, 0x01#8] = .ok (.push 0x01#8, []) ∧
  decodeBytes [0x46#8, 0x02#8] = .ok (.pop 0x02#8, []) ∧
  decodeBytes [0xA0#8, 0x00#8, 0x01#8] = .error (.unknownOpcode 0xA0#8) ∧
  decodeBytes [0xA2#8, 0x00#8] = .error (.missingOperand 2)

/-- R50 to R55, R58: decoding and encoding agree in both directions, for every instruction with every operand byte and
whatever bytes follow. -/
def Obligations.DecodeAndEncodeAgree : Prop :=
  ∀ (bytes rest : List Byte) (i : Instr), decodeBytes bytes = .ok (i, rest) ↔ bytes = encode i ++ rest

/-! ### The instruction cycle -/

/-- R70: in Idle, Loaded, Halted and Faulted the core changes nothing. The step answers the same state (log entry 1). -/
def Obligations.NothingMovesOutsideRunning : Prop :=
  ∀ s : State, s.status ≠ .running → step s = .next s

/-- R71: the opcode fetch at `pc` = 256 stops the step with OutOfBounds(256); at 0 to 255 it cannot fail. -/
def Obligations.OpcodeFetchPastTheEndFaults : Prop :=
  ∀ s : State,
    (s.status = .running → s.pc = 256#9 → Faults s .outOfBounds 256#9) ∧
    (s.pc.toNat ≤ 255 → memRead s.pc.toNat s = .ok (Memory.read s.mem s.pc.toNat))

/-- R72, R24: every step that fetches an opcode latches it and the two bytes after it, marking as unavailable, and reading
as 0, a byte above address 255. -/
def Obligations.FetchLatchesThreeBytes : Prop :=
  ∀ s t : State, s.status = .running → s.pc.toNat ≤ 255 → step s = .next t →
    t.latch.ir = byteAt s 0 ∧
    t.latch.opaAvail = decide (s.pc.toNat + 1 ≤ 255) ∧
    t.latch.opa = (if s.pc.toNat + 1 ≤ 255 then byteAt s 1 else 0x00#8) ∧
    t.latch.opbAvail = decide (s.pc.toNat + 2 ≤ 255) ∧
    t.latch.opb = (if s.pc.toNat + 2 ≤ 255 then byteAt s 2 else 0x00#8)

/-- R73, R76, R79: when the bytes at `pc` decode to an instruction, the step is that instruction's execution, from the
state whose fetch latches hold those bytes; the latches are all that the step adds around `exec`. -/
def Obligations.StepRunsTheDecodedInstruction : Prop :=
  ∀ (s : State) (i : Instr), s.status = .running → s.pc.toNat ≤ 255 →
    decode (byteAt s 0) (if s.pc.toNat + 1 ≤ 255 then byteAt s 1 else 0x00#8)
      (if s.pc.toNat + 2 ≤ 255 then byteAt s 2 else 0x00#8) = .known i →
    step s = exec i { s with latch := fetchLatch s }

/-- R33, R73, R76: when memory from `pc` up holds an instruction's encoding, the step is that instruction's execution,
whatever the bytes after it. -/
def Obligations.StepRunsTheEncodedInstruction : Prop :=
  ∀ (s : State) (i : Instr), s.status = .running → s.pc.toNat + i.len ≤ 256 →
    (∀ k, k < i.len → byteAt s k = (encode i).getD k 0x00#8) →
    step s = exec i { s with latch := fetchLatch s }

/-- R74, R165: an unknown opcode appends one diagnostic, moves `pc` by exactly one byte and changes nothing else; the
machine stays Running. (The latches are filled as on every step, R24.) -/
def Obligations.UnknownOpcodeIsReportedAndSkipped : Prop :=
  ∀ s : State, s.status = .running → s.pc.toNat ≤ 255 → kindAt s = .unknown →
    ∃ t, step s = .next t ∧ t.diag = s.diag ++ [⟨s.pc, byteAt s 0⟩] ∧ t.pc.toNat = s.pc.toNat + 1 ∧ SameMem s t ∧
      SameRegs s t ∧ t.status = .running ∧ t.fault = s.fault ∧ t.out = s.out

/-- R77, R15: after a step that leaves the machine Running `pc` has moved by 3 for LDI and MUL, by 2 for PRN, PUSH and POP
and by 1 for an unknown opcode, and is at most 256; after HLT and after a fault it is unchanged. -/
def Obligations.PcMovesByTheInstructionLength : Prop :=
  ∀ s t : State, s.status = .running → s.pc.toNat ≤ 256 → step s = .next t →
    (t.status = .running → t.pc.toNat ≤ 256 ∧
      match kindAt s with
      | .ldi => t.pc.toNat = s.pc.toNat + 3
      | .mul => t.pc.toNat = s.pc.toNat + 3
      | .prn => t.pc.toNat = s.pc.toNat + 2
      | .push => t.pc.toNat = s.pc.toNat + 2
      | .pop => t.pc.toNat = s.pc.toNat + 2
      | .unknown => t.pc.toNat = s.pc.toNat + 1
      | .hlt => False) ∧
    (t.status ≠ .running → t.pc = s.pc)

/-- R81, R91: a step of a Running machine leaves it Running, Halted or Faulted, and Halted exactly when the byte at `pc`
is HLT. -/
def Obligations.HltIsTheOnlyWayToHalted : Prop :=
  ∀ s : State, s.status = .running →
    ∃ t, step s = .next t ∧ (t.status = .running ∨ t.status = .halted ∨ t.status = .faulted) ∧
      (t.status = .halted ↔ s.pc.toNat ≤ 255 ∧ kindAt s = .hlt)

/-- R82: every run ends: within 257 steps a Running machine is Halted or Faulted. That the steps left over after an earlier
end answer the same state is the model's reading (log entry 1, DEDUCED). -/
def Obligations.EveryRunEndsWithin257Steps : Prop :=
  ∀ s : State, s.status = .running → s.pc.toNat ≤ 256 →
    ∃ t, Host.Core.run core 257 s = .next t ∧ Terminal t

/-! ### The instructions -/

/-- R90: HLT's encoding; it halts the machine, `pc` stays, and nothing else changes, at every address; a step of the
halted machine changes nothing (R70, R194). -/
def Obligations.HltHaltsInPlace : Prop :=
  encode .hlt = [0b00000001#8] ∧
  ∀ s : State, ∃ t, exec .hlt s = .next t ∧ t.status = .halted ∧ t.pc = s.pc ∧ SameMem s t ∧ SameRegs s t ∧
    SameTraces s t ∧ t.fault = s.fault ∧ t.latch = s.latch ∧ ∀ u, step t = .next u → u = t

/-- R95: LDI. It completes when both operand bytes lie in memory and operand a names a register, for every register and
every immediate; else OutOfBounds(256), checked first, or InvalidRegister. -/
def Obligations.LdiLoadsTheImmediate : Prop :=
  ∀ (r imm : Byte) (s : State),
    encode (.ldi r imm) = [0b10000010#8, r, imm] ∧
    (∀ i : RegIndex, s.pc.toNat ≤ 253 → r.toNat = i.val →
      ∃ t, exec (.ldi r imm) s = .next t ∧ t.reg i = imm ∧ (∀ j, j ≠ i → t.reg j = s.reg j) ∧
        t.pc.toNat = s.pc.toNat + 3 ∧ SameMem s t ∧ SameControl s t ∧ SameTraces s t) ∧
    (s.pc.toNat = 254 ∨ s.pc.toNat = 255 → exec (.ldi r imm) s = .next (stopped s .outOfBounds 256#9)) ∧
    (s.pc.toNat ≤ 253 → 8 ≤ r.toNat → exec (.ldi r imm) s = .next (stopped s .invalidRegister (r.setWidth 9)))

/-- R96: PRN. It completes when the operand byte lies in memory and names a register: the register's value is appended to
`OUT`; else OutOfBounds(256), checked first, or InvalidRegister. -/
def Obligations.PrnEmitsTheRegister : Prop :=
  ∀ (r : Byte) (s : State),
    encode (.prn r) = [0b01000111#8, r] ∧
    (∀ i : RegIndex, s.pc.toNat ≤ 254 → r.toNat = i.val →
      ∃ t, exec (.prn r) s = .next t ∧ t.out = s.out ++ [s.reg i] ∧ t.diag = s.diag ∧ t.pc.toNat = s.pc.toNat + 2 ∧
        SameMem s t ∧ SameRegs s t ∧ SameControl s t) ∧
    (s.pc.toNat = 255 → exec (.prn r) s = .next (stopped s .outOfBounds 256#9)) ∧
    (s.pc.toNat ≤ 254 → 8 ≤ r.toNat → exec (.prn r) s = .next (stopped s .invalidRegister (r.setWidth 9)))

/-- R109, R106: MUL. It completes when both operand bytes lie in memory and name registers, the same one allowed: register
A gets the product modulo 256; else OutOfBounds(256), checked first, or InvalidRegister, a before b. -/
def Obligations.MulMultipliesModulo256 : Prop :=
  ∀ (a b : Byte) (s : State),
    encode (.mul a b) = [0b10100010#8, a, b] ∧
    (∀ i j : RegIndex, s.pc.toNat ≤ 253 → a.toNat = i.val → b.toNat = j.val →
      ∃ t, exec (.mul a b) s = .next t ∧ (t.reg i).toNat = (s.reg i).toNat * (s.reg j).toNat % 256 ∧
        (∀ k, k ≠ i → t.reg k = s.reg k) ∧ t.pc.toNat = s.pc.toNat + 3 ∧ SameMem s t ∧ SameControl s t ∧
        SameTraces s t) ∧
    (s.pc.toNat = 254 ∨ s.pc.toNat = 255 → exec (.mul a b) s = .next (stopped s .outOfBounds 256#9)) ∧
    (s.pc.toNat ≤ 253 → 8 ≤ a.toNat → exec (.mul a b) s = .next (stopped s .invalidRegister (a.setWidth 9))) ∧
    (s.pc.toNat ≤ 253 → a.toNat ≤ 7 → 8 ≤ b.toNat →
      exec (.mul a b) s = .next (stopped s .invalidRegister (b.setWidth 9)))

/-- R121, R124: PUSH. It completes when the operand byte lies in memory and names a register and SP is not 0: SP goes down
by one, the byte at the new SP becomes the register's value read after the decrement (for register 7 the new SP), and
every other byte of memory is unchanged; else OutOfBounds(256), InvalidRegister or StackFault(0), in that order. -/
def Obligations.PushStoresBelowTheStackPointer : Prop :=
  ∀ (r : Byte) (s : State),
    encode (.push r) = [0b01000101#8, r] ∧
    (∀ i : RegIndex, Memory.wf s.mem = true → s.pc.toNat ≤ 254 → r.toNat = i.val → s.sp ≠ 0x00#8 →
      ∃ t, exec (.push r) s = .next t ∧ t.sp.toNat = s.sp.toNat - 1 ∧ (∀ j, j ≠ 7 → t.reg j = s.reg j) ∧
        Memory.read t.mem (s.sp.toNat - 1) = (if i = 7 then s.sp - 1#8 else s.reg i) ∧
        (∀ a, a ≠ s.sp.toNat - 1 → Memory.read t.mem a = Memory.read s.mem a) ∧
        t.pc.toNat = s.pc.toNat + 2 ∧ SameControl s t ∧ SameTraces s t) ∧
    (s.pc.toNat = 255 → exec (.push r) s = .next (stopped s .outOfBounds 256#9)) ∧
    (s.pc.toNat ≤ 254 → 8 ≤ r.toNat → exec (.push r) s = .next (stopped s .invalidRegister (r.setWidth 9))) ∧
    (s.pc.toNat ≤ 254 → r.toNat ≤ 7 → s.sp = 0x00#8 → exec (.push r) s = .next (stopped s .stackFault 0#9))

/-- R122, R123, R125: POP. It completes when the operand byte lies in memory and names a register and SP is below 0xF4:
the register gets the byte at SP and SP goes up by one; for register 7 SP ends one above the popped byte, which must not
be 255; memory is unchanged. Else OutOfBounds(256), InvalidRegister or StackFault(SP), in that order, or for register 7
StackFault(255). -/
def Obligations.PopLoadsFromTheStackPointer : Prop :=
  ∀ (r : Byte) (s : State),
    encode (.pop r) = [0b01000110#8, r] ∧
    (∀ i : RegIndex, s.pc.toNat ≤ 254 → r.toNat = i.val → i ≠ 7 → s.sp.toNat < 0xF4 →
      ∃ t, exec (.pop r) s = .next t ∧ t.reg i = Memory.read s.mem s.sp.toNat ∧ t.sp.toNat = s.sp.toNat + 1 ∧
        (∀ j, j ≠ i → j ≠ 7 → t.reg j = s.reg j) ∧ t.pc.toNat = s.pc.toNat + 2 ∧ SameMem s t ∧ SameControl s t ∧
        SameTraces s t) ∧
    (s.pc.toNat ≤ 254 → r.toNat = 7 → s.sp.toNat < 0xF4 → Memory.read s.mem s.sp.toNat ≠ 0xFF#8 →
      ∃ t, exec (.pop r) s = .next t ∧ t.sp.toNat = (Memory.read s.mem s.sp.toNat).toNat + 1 ∧
        (∀ j, j ≠ 7 → t.reg j = s.reg j) ∧ t.pc.toNat = s.pc.toNat + 2 ∧ SameMem s t ∧ SameControl s t ∧
        SameTraces s t) ∧
    (s.pc.toNat = 255 → exec (.pop r) s = .next (stopped s .outOfBounds 256#9)) ∧
    (s.pc.toNat ≤ 254 → 8 ≤ r.toNat → exec (.pop r) s = .next (stopped s .invalidRegister (r.setWidth 9))) ∧
    (s.pc.toNat ≤ 254 → r.toNat ≤ 7 → 0xF4 ≤ s.sp.toNat →
      exec (.pop r) s = .next (stopped s .stackFault (s.sp.setWidth 9))) ∧
    (s.pc.toNat ≤ 254 → r.toNat = 7 → s.sp.toNat < 0xF4 → Memory.read s.mem s.sp.toNat = 0xFF#8 →
      exec (.pop r) s = .next (stopped s .stackFault 255#9))

/-- R105, R106, R107, R108, R139: the ALU at its own ports, for every operation code and every pair of operands. -/
def Obligations.AluComputesAtItsPorts : Prop :=
  ∀ a b : Byte,
    ((alu 0#2 a b).y.toNat = (a.toNat + b.toNat) % 256 ∧ (alu 0#2 a b).unsupported = false) ∧
    ((alu 1#2 a b).y.toNat = a.toNat * b.toNat % 256 ∧ (alu 1#2 a b).unsupported = false) ∧
    alu 2#2 a b = { y := 0x00#8, unsupported := true } ∧ alu 3#2 a b = { y := 0x00#8, unsupported := true }

/-- R127: N pushes take SP down by N and N pops then bring it back, for registers other than 7 and with no fault, and the
items come off in the reverse of the order they went on. -/
def Obligations.PushesThenPopsReverseTheItems : Prop :=
  ∀ (s : State) (ps qs : List RegIndex), Memory.wf s.mem = true → 7 ∉ ps → 7 ∉ qs → qs.length = ps.length →
    ps.length ≤ s.sp.toNat → s.sp.toNat ≤ 0xF4 → s.pc.toNat + 4 * ps.length ≤ 256 →
    ∃ t u, execAll (ps.map fun i => .push (BitVec.ofNat 8 i.val)) s = .next t ∧
      t.sp.toNat = s.sp.toNat - ps.length ∧
      execAll (qs.map fun i => .pop (BitVec.ofNat 8 i.val)) t = .next u ∧ u.sp = s.sp ∧
      (qs.Nodup → qs.map u.reg = (ps.map s.reg).reverse)

/-! ### Faults -/

/-- R161, R75: a step of a Running machine raises OutOfBounds exactly in the three cases of the table, always with
`fault_info` = 256, and with no other datum. -/
def Obligations.OutOfBoundsExactlyInFetch : Prop :=
  ∀ s : State, s.status = .running → s.pc.toNat ≤ 256 →
    ((∃ info, Faults s .outOfBounds info) ↔ Faults s .outOfBounds 256#9) ∧
    (Faults s .outOfBounds 256#9 ↔
      s.pc.toNat = 256 ∨ (s.pc.toNat = 255 ∧ takesRegister (kindAt s)) ∨
        (s.pc.toNat = 254 ∧ (kindAt s = .ldi ∨ kindAt s = .mul)))

/-- R162, R53: a step of a Running machine raises InvalidRegister exactly when the instruction's operand bytes lie in
memory and operand a names no register, with that byte as datum, or, for MUL, operand b is the first that names none. -/
def Obligations.InvalidRegisterExactlyAboveSeven : Prop :=
  ∀ (s : State) (info : PcWord), s.status = .running → s.pc.toNat ≤ 256 →
    (Faults s .invalidRegister info ↔
      s.pc.toNat + (kindAt s).len ≤ 256 ∧
        ((takesRegister (kindAt s) ∧ 8 ≤ (byteAt s 1).toNat ∧ info = (byteAt s 1).setWidth 9) ∨
         (kindAt s = .mul ∧ (byteAt s 1).toNat ≤ 7 ∧ 8 ≤ (byteAt s 2).toNat ∧ info = (byteAt s 2).setWidth 9)))

/-- R53, R162: with its bytes in memory, an instruction raises InvalidRegister exactly when it is ill-formed: when some
register operand byte is 8 or more. -/
def Obligations.IllFormedInstructionsRaiseInvalidRegister : Prop :=
  ∀ (i : Instr) (s : State), s.pc.toNat + i.len ≤ 256 →
    (i.wellFormed = false ↔ ∃ info, exec i s = .next (stopped s .invalidRegister info))

/-- R163, R123, R125: a step of a Running machine raises StackFault exactly when a PUSH or POP whose operand is sound
finds SP where it cannot move: PUSH at 0, POP at 0xF4 or above, and POP R7 of the byte 255. -/
def Obligations.StackFaultExactlyAtTheBounds : Prop :=
  ∀ (s : State) (info : PcWord), s.status = .running → s.pc.toNat ≤ 256 →
    (Faults s .stackFault info ↔
      s.pc.toNat ≤ 254 ∧ (byteAt s 1).toNat ≤ 7 ∧
        ((kindAt s = .push ∧ s.sp = 0x00#8 ∧ info = 0#9) ∨
         (kindAt s = .pop ∧ 0xF4 ≤ s.sp.toNat ∧ info = s.sp.setWidth 9) ∨
         (kindAt s = .pop ∧ s.sp.toNat < 0xF4 ∧ byteAt s 1 = 7#8 ∧ Memory.read s.mem s.sp.toNat = 0xFF#8 ∧
          info = 255#9)))

/-- R164, R108: an unsupported ALU operation raises UnsupportedOperation with its code as datum and gets no value, and no
step of any Running machine raises it. -/
def Obligations.UnsupportedOperationIsUnreachable : Prop :=
  (∀ (op : BitVec 2) (a b : Byte), 2 ≤ op.toNat → aluApply op a b = .error (.unsupportedOperation op)) ∧
  (∀ op : BitVec 2, Raise.info (.unsupportedOperation op) = op.setWidth 9) ∧
  (∀ (s : State) (info : PcWord), s.status = .running → ¬ Faults s .unsupportedOperation info)

/-- R169, R170, R171: a step that faults keeps every register, memory byte, `pc` and trace, writes the record with the
`pc` of the faulting instruction, and stops the machine. That a later step answers the same state is the model's
reading (log entry 1). -/
def Obligations.AFaultingStepHasNoPartialEffect : Prop :=
  ∀ s t : State, s.status = .running → step s = .next t → t.status = .faulted →
    SameMem s t ∧ SameRegs s t ∧ t.pc = s.pc ∧ SameTraces s t ∧ t.fault.pc = s.pc ∧ t.fault.code ≠ .noFault ∧
      t.isRunning = false ∧ step t = .next t

/-- R18, R171: the fault record changes only when a Running machine faults, and only reset clears it. -/
def Obligations.TheFaultRecordIsWrittenOnce : Prop :=
  (∀ s t : State, step s = .next t → t.fault ≠ s.fault → s.status = .running ∧ t.status = .faulted) ∧
  (∀ (s : State) (c : Command), c ≠ .reset → (command c s).state.fault = s.fault)

/-! ### Frames over all instructions -/

/-- R10, R32: a step of a Running machine changes no byte of memory unless the instruction at `pc` is PUSH, and then none
but the byte just below the stack pointer. -/
def Obligations.OnlyPushWritesMemory : Prop :=
  ∀ s t : State, s.status = .running → s.pc.toNat ≤ 256 → step s = .next t →
    ∀ a, Memory.read t.mem a ≠ Memory.read s.mem a →
      s.pc.toNat ≤ 254 ∧ kindAt s = .push ∧ a + 1 = s.sp.toNat

/-- R11: a step of a Running machine changes no register but operand a's of LDI, MUL and POP, and register 7 by PUSH and
POP. -/
def Obligations.EachInstructionWritesItsOwnRegisters : Prop :=
  ∀ s t : State, s.status = .running → s.pc.toNat ≤ 256 → step s = .next t →
    ∀ j : RegIndex, t.reg j ≠ s.reg j →
      ((kindAt s = .ldi ∨ kindAt s = .mul ∨ kindAt s = .pop) ∧ (byteAt s 1).toNat = j.val) ∨
      ((kindAt s = .push ∨ kindAt s = .pop) ∧ j = 7)

/-- R20, R9, R32: the traces only grow, by at most one item a step, and no step reads them: a machine with other traces
takes the same step and appends the same items. -/
def Obligations.TracesGrowAndSteerNothing : Prop :=
  ∀ (s t : State) (o : List Byte) (d : List Diag), step s = .next t →
    ∃ (o' : List Byte) (d' : List Diag), o'.length + d'.length ≤ 1 ∧ t.out = s.out ++ o' ∧ t.diag = s.diag ++ d' ∧
      step { s with out := o, diag := d } = .next { t with out := o ++ o', diag := d ++ d' }

/-- R24: no step reads a latch an earlier step filled. -/
def Obligations.NoStepReadsAnEarlierLatch : Prop :=
  ∀ (s : State) (l : FetchLatch), s.status = .running → step { s with latch := l } = step s

/-- R41, R38: a byte that PUSH stores where the next instruction starts is the opcode the next fetch reads. -/
def Obligations.AStoreIsSeenByTheNextFetch : Prop :=
  ∀ (s t : State) (i : RegIndex), Memory.wf s.mem = true → i ≠ 7 →
    exec (.push (BitVec.ofNat 8 i.val)) s = .next t → t.status ≠ .faulted → t.pc.toNat + 1 = s.sp.toNat →
    (fetchLatch t).ir = s.reg i

/-! ### Invariants -/

/-- R26: the invariant holds at reset. -/
def Obligations.ReachableInvariantAtReset : Prop := Inv State.reset

/-- R13, R26: every step keeps the invariant. -/
def Obligations.EveryStepKeepsTheInvariant : Prop :=
  ∀ s t : State, Inv s → step s = .next t → Inv t

/-- R26, R190 to R195: every host command keeps the invariant. -/
def Obligations.EveryCommandKeepsTheInvariant : Prop :=
  ∀ (c : Command) (s : State), Inv s → Inv (command c s).state

/-- R26: in every state the machine and its host can reach from reset, `pc` is 0 to 256, `fault_code` is None exactly when
the machine is not Faulted, Idle is the reset state, and Loaded holds an image under the reset registers and `pc`. -/
def Obligations.ReachableStatesMeetR26 : Prop :=
  ∀ s : State, Reachable s →
    s.pc.toNat ≤ 256 ∧ Memory.wf s.mem = true ∧ (s.fault.code = .noFault ↔ s.status ≠ .faulted) ∧
    (s.status = .idle → (∀ a, Memory.read s.mem a = 0x00#8) ∧ s.regs = State.reset.regs ∧ s.pc = 0#9) ∧
    (s.status = .loaded → HoldsImage s.mem ∧ s.regs = State.reset.regs ∧ s.pc = 0#9)

/-! ### The units -/

/-- R137, R55: the decoder unit's `known`, `kind`, `n_ops` and `len` are the opcode map's, for every opcode byte. -/
def Obligations.DecoderUnitAgreesWithTheOpcodeMap : Prop :=
  ∀ ir : Byte,
    ((instructionDecoder ir).known = decide (kindOf ir ≠ .unknown)) ∧
    ((instructionDecoder ir).kind =
      match kindOf ir with
      | .unknown => 0#3
      | .hlt => 1#3
      | .ldi => 2#3
      | .prn => 3#3
      | .mul => 4#3
      | .push => 5#3
      | .pop => 6#3) ∧
    (instructionDecoder ir).nOps.toNat = (kindOf ir).nOps ∧ (instructionDecoder ir).len.toNat = (kindOf ir).len

/-- R140, R190 to R195: the sequencer unit answers each host input as the lifecycle commands do: the same `pc`, `state` and
fault record, and a `state_error` pulse exactly when the command is refused. `load_ok` is the pulse of a load whose image
can be loaded. The step inputs are idle, as a machine outside a step has them. -/
def Obligations.SequencerUnitFollowsTheCommands : Prop :=
  ∀ (s : State) (image : List Byte), s.status ≠ .running → imageError image = none →
    let q : Sequencer := ⟨s.pc, s.status, s.fault⟩
    let holds (c : Command) (r l b : Bool) : Prop :=
      sequencer ⟨r, l, b, 0#2, false, none⟩ q =
        (⟨(command c s).state.pc, (command c s).state.status, (command c s).state.fault⟩,
          decide ((command c s).response = .stateError))
    holds .reset true false false ∧ holds (.load (.bytes image)) false true false ∧ holds .start false false true

/-- R142, R192: a load is its bytes written through the loader's port, byte i at address i, and then `load_ok`. -/
def Obligations.LoadIsTheLoaderPortsWrites : Prop :=
  ∀ (s : State) (image : List Byte), s.status = .idle → 1 ≤ image.length → image.length ≤ 256 →
    (command (.load (.bytes image)) s).state =
      { (image.zipIdx.foldl (fun u c => loaderPort true (BitVec.ofNat 8 c.2) c.1 u) s) with status := .loaded }

/-- R143: the five units wired together compute the step of R80: the same next state, with the same emissions, for every
Running state whose `pc` is 0 to 256. -/
def Obligations.TheFiveUnitsComputeTheStep : Prop :=
  ∀ s : State, s.status = .running → s.pc.toNat ≤ 256 → step s = .next (unitsStep s)

/-! ### Placing an instruction -/

/-- R70, R73: the next step executes the instruction at `pc` of a Running machine. That the instruction is brought there
by `withFetchWord`, which stores it at the `pc` of the reset machine and makes it Running in place of the host's load and
start, is the model's choice (log entry 2, DESIGN CHOICE). -/
def Obligations.APlacedInstructionRunsNext : Prop :=
  ∀ (nbits w : Nat) (i : Instr), decodeTableWord nbits w = some i →
    step (State.reset.withFetchWord nbits w) =
      exec i { State.reset.withFetchWord nbits w with latch := fetchLatch (State.reset.withFetchWord nbits w) }
end

