-- ==== Sys2Proof/Laws/Decode.lean ====
section
/-! SUPPORT. The opcode map, read byte by byte: which kind each opcode is, and that no other byte is one. -/

namespace Sys2Proof

@[simp] theorem kindOf_hlt : kindOf 0x01#8 = .hlt := by decide
@[simp] theorem kindOf_ldi : kindOf 0x82#8 = .ldi := by decide
@[simp] theorem kindOf_prn : kindOf 0x47#8 = .prn := by decide
@[simp] theorem kindOf_mul : kindOf 0xA2#8 = .mul := by decide
@[simp] theorem kindOf_push : kindOf 0x45#8 = .push := by decide
@[simp] theorem kindOf_pop : kindOf 0x46#8 = .pop := by decide

/-- No two rows of the opcode map share an opcode (R55). -/
theorem opcodeTable_distinct : opcodeTable.Pairwise (fun r q => r.opcode ≠ q.opcode) := by decide

/-- The kind of a byte, as the chain of comparisons the opcode map stands for. -/
theorem kindOf_eq (b : Byte) :
    kindOf b = if b = 0x01#8 then .hlt else if b = 0x82#8 then .ldi else if b = 0x47#8 then .prn
      else if b = 0xA2#8 then .mul else if b = 0x45#8 then .push else if b = 0x46#8 then .pop else .unknown := by
  simp only [kindOf, opcodeTable, List.find?, beq_eq_decide, eq_comm (a := b)]
  split_ifs with h1 h2 h3 h4 h5 h6 <;> simp [*]

/-- What decoding three bytes gives, as the chain of comparisons the opcode map stands for. -/
theorem decode_eq (ir a b : Byte) :
    decode ir a b = if ir = 0x01#8 then .known .hlt else if ir = 0x82#8 then .known (.ldi a b)
      else if ir = 0x47#8 then .known (.prn a) else if ir = 0xA2#8 then .known (.mul a b)
      else if ir = 0x45#8 then .known (.push a) else if ir = 0x46#8 then .known (.pop a) else .unknown ir := by
  simp only [decode, kindOf_eq]
  split_ifs <;> rfl

end Sys2Proof
end

