-- ==== Sys2Proof/Laws/Memory.lean ====
section
/-! SUPPORT. Memory: what a read gives after a write, and that every memory operation keeps the canonical form. -/

namespace Sys2Proof.Machine

@[simp] theorem Memory.read_nil (a : Nat) : Memory.read [] a = 0x00#8 := rfl

theorem Memory.read_cons (b : Nat) (w : Byte) (m : List Host.Cell) (a : Nat) :
    Memory.read ((b, w) :: m) a = if a = b then w else Memory.read m a := rfl

/-- The canonical form of a listed memory, taken apart. -/
theorem Memory.wf_cons (a : Nat) (v : Byte) (m : List Host.Cell) :
    Memory.wf ((a, v) :: m) = true ↔
      a < 256 ∧ v ≠ 0x00#8 ∧ (∀ c ∈ m, a < c.1) ∧ Memory.wf m = true := by
  simp only [Memory.wf, Bool.and_eq_true, decide_eq_true_eq, List.all_eq_true, and_assoc]

@[simp] theorem Memory.wf_nil : Memory.wf [] = true := rfl

/-- Below every listed address, a cell holds the reset value. -/
theorem Memory.read_of_lt {m : List Host.Cell} {a : Nat} (h : ∀ c ∈ m, a < c.1) : Memory.read m a = 0x00#8 := by
  induction m with
  | nil => rfl
  | cons c m ih =>
    obtain ⟨b, w⟩ := c
    have hb : a < b := h (b, w) (by simp)
    rw [Memory.read_cons, if_neg (by omega), ih fun c hc => h c (by simp [hc])]

/-- A write leaves every other cell alone. -/
theorem Memory.read_write_ne (m : List Host.Cell) {a b : Nat} (v : Byte) (h : b ≠ a) :
    Memory.read (Memory.write m a v) b = Memory.read m b := by
  induction m with
  | nil =>
    by_cases hv : v = 0x00#8 <;> simp [Memory.write, Memory.read_cons, Config.memReset, hv, h]
  | cons c m ih =>
    obtain ⟨k, w⟩ := c
    simp only [Memory.write]
    split_ifs with h1 h2 h3 h4
    · rfl
    · simp [Memory.read_cons, h]
    · subst h3; simp [Memory.read_cons, h]
    · subst h3; simp [Memory.read_cons, h]
    · simp [Memory.read_cons, ih]

/-- A read after a write to the same cell gives the byte written. -/
theorem Memory.read_write_self {m : List Host.Cell} (a : Nat) (v : Byte) (h : Memory.wf m = true) :
    Memory.read (Memory.write m a v) a = v := by
  induction m with
  | nil => by_cases hv : v = 0x00#8 <;> simp [Memory.write, Memory.read_cons, Config.memReset, hv]
  | cons c m ih =>
    obtain ⟨k, w⟩ := c
    obtain ⟨-, -, hlt, hwf⟩ := (Memory.wf_cons k w m).1 h
    simp only [Memory.write]
    split_ifs with h1 h2 h3 h4
    · rw [h2]
      refine Memory.read_of_lt ?_
      simp only [List.mem_cons, forall_eq_or_imp]
      exact ⟨h1, fun c hc => lt_trans h1 (hlt c hc)⟩
    · simp [Memory.read_cons]
    · rw [h4]; exact Memory.read_of_lt (by subst h3; exact hlt)
    · simp [Memory.read_cons]
    · simp [Memory.read_cons, h3, ih hwf]

theorem Memory.read_write {m : List Host.Cell} (a b : Nat) (v : Byte) (h : Memory.wf m = true) :
    Memory.read (Memory.write m a v) b = if b = a then v else Memory.read m b := by
  split_ifs with hb
  · rw [hb]; exact Memory.read_write_self a v h
  · exact Memory.read_write_ne m v hb

/-- Every cell a write lists is the written one or was listed. -/
theorem Memory.mem_write {m : List Host.Cell} {a : Nat} {v : Byte} {c : Host.Cell} (h : c ∈ Memory.write m a v) :
    c = (a, v) ∨ c ∈ m := by
  induction m with
  | nil => simp only [Memory.write] at h; split_ifs at h <;> simp_all
  | cons d m ih =>
    obtain ⟨k, w⟩ := d
    simp only [Memory.write] at h
    split_ifs at h
    · exact .inr h
    · simpa [or_assoc] using h
    · exact .inr (List.mem_cons_of_mem _ h)
    · rcases List.mem_cons.1 h with h | h
      · exact .inl h
      · exact .inr (List.mem_cons_of_mem _ h)
    · rcases List.mem_cons.1 h with h | h
      · exact .inr (by simp [h])
      · exact (ih h).imp id (List.mem_cons_of_mem _)

/-- A write at an address of memory keeps the canonical form. -/
theorem Memory.wf_write {m : List Host.Cell} {a : Nat} (v : Byte) (ha : a < 256) (h : Memory.wf m = true) :
    Memory.wf (Memory.write m a v) = true := by
  induction m with
  | nil => by_cases hv : v = 0x00#8 <;> simp [Memory.write, Memory.wf_cons, Config.memReset, hv, ha]
  | cons c m ih =>
    obtain ⟨k, w⟩ := c
    obtain ⟨hk, hw, hlt, hwf⟩ := (Memory.wf_cons k w m).1 h
    simp only [Memory.write]
    split_ifs with h1 h2 h3 h4
    · exact h
    · refine (Memory.wf_cons ..).2 ⟨ha, h2, ?_, h⟩
      simp only [List.mem_cons, forall_eq_or_imp]
      exact ⟨h1, fun c hc => lt_trans h1 (hlt c hc)⟩
    · exact hwf
    · exact (Memory.wf_cons ..).2 ⟨ha, h4, by subst h3; exact hlt, hwf⟩
    · refine (Memory.wf_cons ..).2 ⟨hk, hw, fun c hc => ?_, ih hwf⟩
      rcases Memory.mem_write hc with rfl | hc
      · show k < a; omega
      · exact hlt c hc

/-- Storing bytes inside memory keeps the canonical form. -/
theorem Memory.wf_writeAll {m : List Host.Cell} {a : Nat} (vs : List Byte) (ha : a + vs.length ≤ 256)
    (h : Memory.wf m = true) : Memory.wf (Memory.writeAll m a vs) = true := by
  induction vs generalizing m a with
  | nil => exact h
  | cons v vs ih =>
    simp only [List.length_cons] at ha
    exact ih (by omega) (Memory.wf_write v (by omega) h)

/-- What memory holds after storing bytes from `a` up. -/
theorem Memory.read_writeAll {m : List Host.Cell} (a b : Nat) (vs : List Byte) (ha : a + vs.length ≤ 256)
    (h : Memory.wf m = true) :
    Memory.read (Memory.writeAll m a vs) b =
      if a ≤ b ∧ b < a + vs.length then vs.getD (b - a) 0x00#8 else Memory.read m b := by
  induction vs generalizing m a with
  | nil => rw [if_neg (by simp)]; rfl
  | cons v vs ih =>
    simp only [List.length_cons] at ha
    rw [Memory.writeAll, ih (a + 1) (by omega) (Memory.wf_write v (by omega) h), Memory.read_write a b v h]
    simp only [List.length_cons]
    by_cases h1 : a + 1 ≤ b ∧ b < a + 1 + vs.length
    · have : b - a = (b - (a + 1)) + 1 := by omega
      rw [if_pos h1, if_pos (by omega), this]; rfl
    · rw [if_neg h1]
      by_cases h2 : b = a
      · subst h2; simp
      · rw [if_neg h2, if_neg (by omega)]

/-- Placing an instruction's bytes keeps the canonical form. -/
theorem wf_placeBytes {m : List Host.Cell} (a : Nat) (vs : List Byte) (h : Memory.wf m = true) :
    Memory.wf (placeBytes m a vs) = true := by
  induction vs generalizing m a with
  | nil => exact h
  | cons v vs ih =>
    rw [placeBytes]
    split_ifs with ha
    · exact ih _ (Memory.wf_write v ha h)
    · exact ih _ h

end Sys2Proof.Machine
end

