-- ==== Sys2Proof/Laws/State.lean ====
section
/-! SUPPORT. What each update of the state does to each field, and to each register as it is read: the lemmas that
keep a record update from being unfolded twice. -/

namespace Sys2Proof.Machine

section
variable (s : State) (i : RegIndex) (v : Byte)
@[simp] theorem State.setReg_mem : (s.setReg i v).mem = s.mem := rfl
@[simp] theorem State.setReg_regs : (s.setReg i v).regs = s.regs.set i.val v := rfl
@[simp] theorem State.setReg_pc : (s.setReg i v).pc = s.pc := rfl
@[simp] theorem State.setReg_status : (s.setReg i v).status = s.status := rfl
@[simp] theorem State.setReg_fault : (s.setReg i v).fault = s.fault := rfl
@[simp] theorem State.setReg_out : (s.setReg i v).out = s.out := rfl
@[simp] theorem State.setReg_diag : (s.setReg i v).diag = s.diag := rfl
@[simp] theorem State.setReg_latch : (s.setReg i v).latch = s.latch := rfl
end

section
variable (s : State) (v : Byte)
@[simp] theorem State.setSp_mem : (s.setSp v).mem = s.mem := rfl
@[simp] theorem State.setSp_regs : (s.setSp v).regs = s.regs.set 7 v := rfl
@[simp] theorem State.setSp_pc : (s.setSp v).pc = s.pc := rfl
@[simp] theorem State.setSp_status : (s.setSp v).status = s.status := rfl
@[simp] theorem State.setSp_fault : (s.setSp v).fault = s.fault := rfl
@[simp] theorem State.setSp_out : (s.setSp v).out = s.out := rfl
@[simp] theorem State.setSp_diag : (s.setSp v).diag = s.diag := rfl
@[simp] theorem State.setSp_latch : (s.setSp v).latch = s.latch := rfl
end

section
variable (s : State) (n : Nat)
@[simp] theorem State.advance_mem : (s.advance n).mem = s.mem := rfl
@[simp] theorem State.advance_regs : (s.advance n).regs = s.regs := rfl
@[simp] theorem State.advance_pc : (s.advance n).pc = BitVec.ofNat 9 (s.pc.toNat + n) := rfl
@[simp] theorem State.advance_status : (s.advance n).status = s.status := rfl
@[simp] theorem State.advance_fault : (s.advance n).fault = s.fault := rfl
@[simp] theorem State.advance_out : (s.advance n).out = s.out := rfl
@[simp] theorem State.advance_diag : (s.advance n).diag = s.diag := rfl
@[simp] theorem State.advance_latch : (s.advance n).latch = s.latch := rfl
@[simp] theorem State.advance_reg (j : RegIndex) : (s.advance n).reg j = s.reg j := rfl
@[simp] theorem State.advance_sp : (s.advance n).sp = s.sp := rfl
end

section
variable (s : State) (v : Byte)
@[simp] theorem State.emitPrn_mem : (s.emitPrn v).mem = s.mem := rfl
@[simp] theorem State.emitPrn_regs : (s.emitPrn v).regs = s.regs := rfl
@[simp] theorem State.emitPrn_pc : (s.emitPrn v).pc = s.pc := rfl
@[simp] theorem State.emitPrn_status : (s.emitPrn v).status = s.status := rfl
@[simp] theorem State.emitPrn_fault : (s.emitPrn v).fault = s.fault := rfl
@[simp] theorem State.emitPrn_out : (s.emitPrn v).out = s.out ++ [v] := rfl
@[simp] theorem State.emitPrn_diag : (s.emitPrn v).diag = s.diag := rfl
@[simp] theorem State.emitPrn_latch : (s.emitPrn v).latch = s.latch := rfl
@[simp] theorem State.emitPrn_reg (j : RegIndex) : (s.emitPrn v).reg j = s.reg j := rfl
@[simp] theorem State.emitPrn_sp : (s.emitPrn v).sp = s.sp := rfl
end

section
variable (s : State) (p : PcWord) (b : Byte)
@[simp] theorem State.emitDiag_mem : (s.emitDiag p b).mem = s.mem := rfl
@[simp] theorem State.emitDiag_regs : (s.emitDiag p b).regs = s.regs := rfl
@[simp] theorem State.emitDiag_pc : (s.emitDiag p b).pc = s.pc := rfl
@[simp] theorem State.emitDiag_status : (s.emitDiag p b).status = s.status := rfl
@[simp] theorem State.emitDiag_fault : (s.emitDiag p b).fault = s.fault := rfl
@[simp] theorem State.emitDiag_out : (s.emitDiag p b).out = s.out := rfl
@[simp] theorem State.emitDiag_diag : (s.emitDiag p b).diag = s.diag ++ [⟨p, b⟩] := rfl
@[simp] theorem State.emitDiag_latch : (s.emitDiag p b).latch = s.latch := rfl
@[simp] theorem State.emitDiag_reg (j : RegIndex) : (s.emitDiag p b).reg j = s.reg j := rfl
@[simp] theorem State.emitDiag_sp : (s.emitDiag p b).sp = s.sp := rfl
end

section
variable (s : State) 
@[simp] theorem State.latched_mem : (s.latched).mem = s.mem := rfl
@[simp] theorem State.latched_regs : (s.latched).regs = s.regs := rfl
@[simp] theorem State.latched_pc : (s.latched).pc = s.pc := rfl
@[simp] theorem State.latched_status : (s.latched).status = s.status := rfl
@[simp] theorem State.latched_fault : (s.latched).fault = s.fault := rfl
@[simp] theorem State.latched_out : (s.latched).out = s.out := rfl
@[simp] theorem State.latched_diag : (s.latched).diag = s.diag := rfl
@[simp] theorem State.latched_latch : (s.latched).latch = fetchLatch s := rfl
@[simp] theorem State.latched_reg (j : RegIndex) : (s.latched).reg j = s.reg j := rfl
@[simp] theorem State.latched_sp : (s.latched).sp = s.sp := rfl
end

section
variable (r : Raise) (s : State)
@[simp] theorem takeFault_mem : (takeFault r s).mem = s.mem := rfl
@[simp] theorem takeFault_regs : (takeFault r s).regs = s.regs := rfl
@[simp] theorem takeFault_pc : (takeFault r s).pc = s.pc := rfl
@[simp] theorem takeFault_status : (takeFault r s).status = .faulted := rfl
@[simp] theorem takeFault_fault : (takeFault r s).fault = { code := r.code, pc := s.pc, info := r.info } := rfl
@[simp] theorem takeFault_out : (takeFault r s).out = s.out := rfl
@[simp] theorem takeFault_diag : (takeFault r s).diag = s.diag := rfl
@[simp] theorem takeFault_latch : (takeFault r s).latch = s.latch := rfl
@[simp] theorem takeFault_reg (j : RegIndex) : (takeFault r s).reg j = s.reg j := rfl
end

section
variable (s : State) (i j : RegIndex) (v w : Byte)

/-- Reading a register after writing one. -/
theorem State.reg_setReg : (s.setReg i v).reg j = if i = j then v else s.reg j := by
  simp only [State.reg, State.setReg, Vector.getElem_set, Fin.ext_iff]

@[simp] theorem State.reg_setReg_self : (s.setReg i v).reg i = v := by simp [State.reg_setReg]

theorem State.reg_setReg_ne (h : j ≠ i) : (s.setReg i v).reg j = s.reg j := by
  simp [State.reg_setReg, h.symm]

@[simp] theorem State.setReg_setReg : (s.setReg i v).setReg i w = s.setReg i w := by
  simp [State.setReg]

@[simp] theorem State.sp_setSp : (s.setSp v).sp = v := State.reg_setReg_self s _ v

theorem State.sp_setReg : (s.setReg i v).sp = if i = 7 then v else s.sp := State.reg_setReg s i 7 v

theorem State.reg_setSp : (s.setSp v).reg j = if j = 7 then v else s.reg j := by
  simp only [State.setSp, Config.spIndex, State.reg_setReg, eq_comm]

/-- Two states with the same registers, read one by one, have the same register file. -/
theorem State.regs_ext {s t : State} (h : ∀ k : RegIndex, t.reg k = s.reg k) : t.regs = s.regs := by
  apply Vector.ext
  intro k hk
  exact h ⟨k, hk⟩

end

end Sys2Proof.Machine
end

