-- ==== Sys2Proof/Laws/Ops.lean ====
section
/-! SUPPORT. One lemma per shared operation that says everything it can do. -/

namespace Sys2Proof.Machine

@[simp] theorem ok_bind {α β : Type} (a : α) (f : α → Except Raise β) : ((Except.ok a : Except Raise α) >>= f) = f a :=
  rfl

@[simp] theorem error_bind {α β : Type} (r : Raise) (f : α → Except Raise β) :
    ((Except.error r : Except Raise α) >>= f) = .error r :=
  rfl

@[simp] theorem pure_eq_ok {α : Type} (a : α) : (pure a : Except Raise α) = .ok a := rfl

@[simp] theorem complete_ok (s t : State) : complete s (.ok t) = .next t := rfl

@[simp] theorem complete_error (s : State) (r : Raise) : complete s (.error r) = .next (takeFault r s) := rfl

/-- An execute rule ends in its own state or in the fault it raised. -/
theorem complete_next {s t : State} {r : Except Raise State} (h : complete s r = .next t) :
    r = .ok t ∨ ∃ e, r = .error e ∧ t = takeFault e s := by
  cases r with
  | ok u => exact .inl (by simpa using h)
  | error e => exact .inr ⟨e, rfl, by simpa using h.symm⟩

theorem memRead_ok {a : Nat} {s : State} (h : a < 256) : memRead a s = .ok (Memory.read s.mem a) := if_pos h

theorem memRead_error {a : Nat} {s : State} (h : 256 ≤ a) : memRead a s = .error (.outOfBounds a) :=
  if_neg (by simp only [Config.memSize]; omega)

theorem memWrite_ok {a : Nat} {v : Byte} {s : State} (h : a < 256) :
    memWrite a v s = .ok { s with mem := Memory.write s.mem a v } := if_pos h

/-- A data access through an 8-bit register is never out of bounds (R120). -/
@[simp] theorem memRead_byte (b : Byte) (s : State) : memRead b.toNat s = .ok (Memory.read s.mem b.toNat) :=
  memRead_ok b.isLt

@[simp] theorem memWrite_byte (b v : Byte) (s : State) :
    memWrite b.toNat v s = .ok { s with mem := Memory.write s.mem b.toNat v } := memWrite_ok b.isLt

theorem needByte_ok {k : Nat} {s : State} (h : s.pc.toNat + k < 256) : needByte k s = .ok () := if_pos h

theorem needByte_error {k : Nat} {s : State} (h : 256 ≤ s.pc.toNat + k) :
    needByte k s = .error (.outOfBounds (s.pc.toNat + k)) :=
  if_neg (by simp only [Config.memSize]; omega)

theorem regIdx_ok {b : Byte} (i : RegIndex) (h : b.toNat = i.val) : regIdx b = .ok i := by
  have hb : b.toNat < 8 := by omega
  rw [regIdx, dif_pos hb]
  congr 1
  exact Fin.ext h

theorem regIdx_error {b : Byte} (h : 8 ≤ b.toNat) : regIdx b = .error (.invalidRegister b) :=
  dif_neg (by omega)

theorem pushCheck_ok {s : State} (h : s.sp ≠ 0x00#8) : pushCheck s = .ok () := if_neg h

theorem pushCheck_error {s : State} (h : s.sp = 0x00#8) : pushCheck s = .error (.stackFault 0x00#8) := by
  rw [pushCheck, if_pos h, h]

theorem popCheck_ok {s : State} (h : s.sp.toNat < 244) : popCheck s = .ok () :=
  if_neg (show ¬ Config.spInit.toNat ≤ s.sp.toNat from Nat.not_le.2 h)

theorem popCheck_error {s : State} (h : 244 ≤ s.sp.toNat) : popCheck s = .error (.stackFault s.sp) :=
  if_pos (show Config.spInit.toNat ≤ s.sp.toNat from h)

theorem incrementSp_ok {s : State} (h : s.sp ≠ 0xFF#8) : incrementSp s = .ok (s.setSp (s.sp + 1#8)) := if_neg h

theorem incrementSp_error {s : State} (h : s.sp = 0xFF#8) : incrementSp s = .error (.stackFault 0xFF#8) := by
  rw [incrementSp, if_pos h, h]

/-- The multiply never raises: MUL is a supported operation (R108). -/
@[simp] theorem aluApply_mul (a b : Byte) : aluApply aluOpMul a b = .ok (aluMul a b) := rfl

theorem fetchByte_of_lt {s : State} {a : Nat} (h : a < 256) : fetchByte s a = Memory.read s.mem a := if_pos h

theorem fetchByte_of_le {s : State} {a : Nat} (h : 256 ≤ a) : fetchByte s a = 0x00#8 :=
  if_neg (by simp only [Config.memSize]; omega)

/-- A step of the running core is one of three: the opcode fetch faults, an unknown opcode is skipped, or an
instruction is executed. -/
theorem step_running {s : State} (h : s.status = .running) :
    (256 ≤ s.pc.toNat ∧ step s = .next (takeFault (.outOfBounds s.pc.toNat) s.latched)) ∨
    (s.pc.toNat < 256 ∧ step s = decodeAndRun s.latched) := by
  rw [step, cycle, h]
  rcases Nat.lt_or_ge s.pc.toNat 256 with hp | hp
  · exact .inr ⟨hp, by simp [runningStep, memRead_ok hp]⟩
  · exact .inl ⟨hp, by simp [runningStep, memRead_error hp]⟩

end Sys2Proof.Machine
end

