-- ==== Sys2Proof/Laws/Exec.lean ====
section
/-! SUPPORT. What each execute rule can do, once: the faults it raises, in the order it checks for them, and its effect.
Every rule answers a next state. A proof over all instructions takes these apart instead of unfolding the rules. -/

namespace Sys2Proof.Machine

section
variable (s : State)

theorem execHlt_eq : execHlt s = .next { s with status := .halted } := rfl

theorem execLdi_cases (r imm : Byte) :
    (256 ≤ s.pc.toNat + 1 ∧ execLdi r imm s = .next (takeFault (.outOfBounds (s.pc.toNat + 1)) s)) ∨
    (s.pc.toNat + 1 < 256 ∧ 256 ≤ s.pc.toNat + 2 ∧
      execLdi r imm s = .next (takeFault (.outOfBounds (s.pc.toNat + 2)) s)) ∨
    (s.pc.toNat + 2 < 256 ∧ 8 ≤ r.toNat ∧ execLdi r imm s = .next (takeFault (.invalidRegister r) s)) ∨
    (∃ i : RegIndex, s.pc.toNat + 2 < 256 ∧ r.toNat = i.val ∧
      execLdi r imm s = .next ((s.setReg i imm).advance 3)) := by
  rcases Nat.lt_or_ge (s.pc.toNat + 1) 256 with h1 | h1
  · rcases Nat.lt_or_ge (s.pc.toNat + 2) 256 with h2 | h2
    · rcases Nat.lt_or_ge r.toNat 8 with h3 | h3
      · exact .inr (.inr (.inr ⟨⟨r.toNat, h3⟩, h2, rfl, by
          simp [execLdi, needByte_ok h1, needByte_ok h2, regIdx_ok ⟨r.toNat, h3⟩ rfl, immediate]⟩))
      · exact .inr (.inr (.inl ⟨h2, h3, by simp [execLdi, needByte_ok h1, needByte_ok h2, regIdx_error h3]⟩))
    · exact .inr (.inl ⟨h1, h2, by simp [execLdi, needByte_ok h1, needByte_error h2]⟩)
  · exact .inl ⟨h1, by simp [execLdi, needByte_error h1]⟩

theorem execPrn_cases (r : Byte) :
    (256 ≤ s.pc.toNat + 1 ∧ execPrn r s = .next (takeFault (.outOfBounds (s.pc.toNat + 1)) s)) ∨
    (s.pc.toNat + 1 < 256 ∧ 8 ≤ r.toNat ∧ execPrn r s = .next (takeFault (.invalidRegister r) s)) ∨
    (∃ i : RegIndex, s.pc.toNat + 1 < 256 ∧ r.toNat = i.val ∧
      execPrn r s = .next ((s.emitPrn (s.reg i)).advance 2)) := by
  rcases Nat.lt_or_ge (s.pc.toNat + 1) 256 with h1 | h1
  · rcases Nat.lt_or_ge r.toNat 8 with h3 | h3
    · exact .inr (.inr ⟨⟨r.toNat, h3⟩, h1, rfl, by
        simp [execPrn, needByte_ok h1, regIdx_ok ⟨r.toNat, h3⟩ rfl]⟩)
    · exact .inr (.inl ⟨h1, h3, by simp [execPrn, needByte_ok h1, regIdx_error h3]⟩)
  · exact .inl ⟨h1, by simp [execPrn, needByte_error h1]⟩

theorem execMul_cases (a b : Byte) :
    (256 ≤ s.pc.toNat + 1 ∧ execMul a b s = .next (takeFault (.outOfBounds (s.pc.toNat + 1)) s)) ∨
    (s.pc.toNat + 1 < 256 ∧ 256 ≤ s.pc.toNat + 2 ∧
      execMul a b s = .next (takeFault (.outOfBounds (s.pc.toNat + 2)) s)) ∨
    (s.pc.toNat + 2 < 256 ∧ 8 ≤ a.toNat ∧ execMul a b s = .next (takeFault (.invalidRegister a) s)) ∨
    (s.pc.toNat + 2 < 256 ∧ a.toNat < 8 ∧ 8 ≤ b.toNat ∧
      execMul a b s = .next (takeFault (.invalidRegister b) s)) ∨
    (∃ i j : RegIndex, s.pc.toNat + 2 < 256 ∧ a.toNat = i.val ∧ b.toNat = j.val ∧
      execMul a b s = .next ((s.setReg i (aluMul (s.reg i) (s.reg j))).advance 3)) := by
  rcases Nat.lt_or_ge (s.pc.toNat + 1) 256 with h1 | h1
  · rcases Nat.lt_or_ge (s.pc.toNat + 2) 256 with h2 | h2
    · rcases Nat.lt_or_ge a.toNat 8 with h3 | h3
      · rcases Nat.lt_or_ge b.toNat 8 with h4 | h4
        · exact .inr (.inr (.inr (.inr ⟨⟨a.toNat, h3⟩, ⟨b.toNat, h4⟩, h2, rfl, rfl, by
            simp [execMul, needByte_ok h1, needByte_ok h2, regIdx_ok ⟨a.toNat, h3⟩ rfl,
              regIdx_ok ⟨b.toNat, h4⟩ rfl]⟩)))
        · exact .inr (.inr (.inr (.inl ⟨h2, h3, h4, by
            simp [execMul, needByte_ok h1, needByte_ok h2, regIdx_ok ⟨a.toNat, h3⟩ rfl, regIdx_error h4]⟩)))
      · exact .inr (.inr (.inl ⟨h2, h3, by simp [execMul, needByte_ok h1, needByte_ok h2, regIdx_error h3]⟩))
    · exact .inr (.inl ⟨h1, h2, by simp [execMul, needByte_ok h1, needByte_error h2]⟩)
  · exact .inl ⟨h1, by simp [execMul, needByte_error h1]⟩

/-- PUSH's effect on a register file and memory: SP down, then the store at the new SP (R121, R124). -/
def pushed (i : RegIndex) : State :=
  { s.setSp (s.sp - 1#8) with
    mem := Memory.write s.mem (s.sp - 1#8).toNat ((s.setSp (s.sp - 1#8)).reg i) }

theorem execPush_cases (r : Byte) :
    (256 ≤ s.pc.toNat + 1 ∧ execPush r s = .next (takeFault (.outOfBounds (s.pc.toNat + 1)) s)) ∨
    (s.pc.toNat + 1 < 256 ∧ 8 ≤ r.toNat ∧ execPush r s = .next (takeFault (.invalidRegister r) s)) ∨
    (s.pc.toNat + 1 < 256 ∧ r.toNat < 8 ∧ s.sp = 0x00#8 ∧
      execPush r s = .next (takeFault (.stackFault 0x00#8) s)) ∨
    (∃ i : RegIndex, s.pc.toNat + 1 < 256 ∧ r.toNat = i.val ∧ s.sp ≠ 0x00#8 ∧
      execPush r s = .next ((pushed s i).advance 2)) := by
  rcases Nat.lt_or_ge (s.pc.toNat + 1) 256 with h1 | h1
  · rcases Nat.lt_or_ge r.toNat 8 with h3 | h3
    · by_cases h4 : s.sp = 0x00#8
      · exact .inr (.inr (.inl ⟨h1, h3, h4, by
          simp [execPush, needByte_ok h1, regIdx_ok ⟨r.toNat, h3⟩ rfl, pushCheck_error h4]⟩))
      · exact .inr (.inr (.inr ⟨⟨r.toNat, h3⟩, h1, rfl, h4, by
          simp [-BitVec.toNat_sub, execPush, needByte_ok h1, regIdx_ok ⟨r.toNat, h3⟩ rfl, pushCheck_ok h4,
            pushed]⟩))
    · exact .inr (.inl ⟨h1, h3, by simp [execPush, needByte_ok h1, regIdx_error h3]⟩)
  · exact .inl ⟨h1, by simp [execPush, needByte_error h1]⟩

/-- POP's effect: the register gets the byte at SP, then SP goes up (R122, R125). -/
def popped (i : RegIndex) : State :=
  (s.setReg i (Memory.read s.mem s.sp.toNat)).setSp ((s.setReg i (Memory.read s.mem s.sp.toNat)).sp + 1#8)

theorem execPop_cases (r : Byte) :
    (256 ≤ s.pc.toNat + 1 ∧ execPop r s = .next (takeFault (.outOfBounds (s.pc.toNat + 1)) s)) ∨
    (s.pc.toNat + 1 < 256 ∧ 8 ≤ r.toNat ∧ execPop r s = .next (takeFault (.invalidRegister r) s)) ∨
    (s.pc.toNat + 1 < 256 ∧ r.toNat < 8 ∧ 244 ≤ s.sp.toNat ∧
      execPop r s = .next (takeFault (.stackFault s.sp) s)) ∨
    (s.pc.toNat + 1 < 256 ∧ r.toNat = 7 ∧ s.sp.toNat < 244 ∧ Memory.read s.mem s.sp.toNat = 0xFF#8 ∧
      execPop r s = .next (takeFault (.stackFault 0xFF#8) s)) ∨
    (∃ i : RegIndex, s.pc.toNat + 1 < 256 ∧ r.toNat = i.val ∧ s.sp.toNat < 244 ∧
      (i = 7 → Memory.read s.mem s.sp.toNat ≠ 0xFF#8) ∧ execPop r s = .next ((popped s i).advance 2)) := by
  rcases Nat.lt_or_ge (s.pc.toNat + 1) 256 with h1 | h1
  · rcases Nat.lt_or_ge r.toNat 8 with h3 | h3
    · rcases Nat.lt_or_ge s.sp.toNat 244 with h4 | h4
      · by_cases h5 : (s.setReg ⟨r.toNat, h3⟩ (Memory.read s.mem s.sp.toNat)).sp = 0xFF#8
        · have h6 : r.toNat = 7 ∧ Memory.read s.mem s.sp.toNat = 0xFF#8 := by
            rw [State.sp_setReg] at h5
            split_ifs at h5 with h7
            · exact ⟨congrArg Fin.val h7, h5⟩
            · rw [h5] at h4; exact absurd h4 (by decide)
          exact .inr (.inr (.inr (.inl ⟨h1, h6.1, h4, h6.2, by
            simp [execPop, needByte_ok h1, regIdx_ok ⟨r.toNat, h3⟩ rfl, popCheck_ok h4, incrementSp_error h5]⟩)))
        · refine .inr (.inr (.inr (.inr ⟨⟨r.toNat, h3⟩, h1, rfl, h4, fun h7 h8 => h5 ?_, by
            simp [execPop, needByte_ok h1, regIdx_ok ⟨r.toNat, h3⟩ rfl, popCheck_ok h4, incrementSp_ok h5, popped]⟩)))
          rw [State.sp_setReg, if_pos h7, h8]
      · exact .inr (.inr (.inl ⟨h1, h3, h4, by
          simp [execPop, needByte_ok h1, regIdx_ok ⟨r.toNat, h3⟩ rfl, popCheck_error h4]⟩))
    · exact .inr (.inl ⟨h1, h3, by simp [execPop, needByte_ok h1, regIdx_error h3]⟩)
  · exact .inl ⟨h1, by simp [execPop, needByte_error h1]⟩

end

end Sys2Proof.Machine
end

