-- ==== Sys2Proof/Laws/PerInstr.lean ====
section
/-! SUPPORT. Per-instruction families. EncodingShape: the bytes of every instruction are as many as the length column
of the opcode map says, from one to three, and the first is an opcode of the instruction's own kind. -/

namespace Sys2Proof

/-- The shape of an instruction's encoding (R50, R55, R58). -/
def Laws.EncodingShape.Statement (i : Instr) : Prop :=
  (encode i).length = i.len ∧ 1 ≤ i.len ∧ i.len ≤ 3 ∧ (encode i).head?.map kindOf = some i.kind

theorem Laws.EncodingShape.hlt : Laws.EncodingShape.Statement .hlt := by
  refine ⟨rfl, ?_, ?_, ?_⟩ <;> decide

theorem Laws.EncodingShape.ldi (r imm : Byte) : Laws.EncodingShape.Statement (.ldi r imm) :=
  ⟨rfl, show 1 ≤ 3 by decide, show 3 ≤ 3 by decide, congrArg some (show kindOf 0x82#8 = .ldi by decide)⟩

theorem Laws.EncodingShape.prn (r : Byte) : Laws.EncodingShape.Statement (.prn r) :=
  ⟨rfl, show 1 ≤ 2 by decide, show 2 ≤ 3 by decide, congrArg some (show kindOf 0x47#8 = .prn by decide)⟩

theorem Laws.EncodingShape.mul (a b : Byte) : Laws.EncodingShape.Statement (.mul a b) :=
  ⟨rfl, show 1 ≤ 3 by decide, show 3 ≤ 3 by decide, congrArg some (show kindOf 0xA2#8 = .mul by decide)⟩

theorem Laws.EncodingShape.push (r : Byte) : Laws.EncodingShape.Statement (.push r) :=
  ⟨rfl, show 1 ≤ 2 by decide, show 2 ≤ 3 by decide, congrArg some (show kindOf 0x45#8 = .push by decide)⟩

theorem Laws.EncodingShape.pop (r : Byte) : Laws.EncodingShape.Statement (.pop r) :=
  ⟨rfl, show 1 ≤ 2 by decide, show 2 ≤ 3 by decide, congrArg some (show kindOf 0x46#8 = .pop by decide)⟩

end Sys2Proof
end

