-- ==== Sys2Proof/Laws/Step.lean ====
section
/-! SUPPORT. What one step of a Running machine can do, once: a fault, an unknown opcode skipped, or one instruction's
effect, told by the bytes of memory at `pc`. Claims about every step take this apart instead of unfolding `step`. -/

namespace Sys2Proof.Machine

/-- The latches of a step that fetches an opcode, byte by byte (R72). -/
theorem fetchLatch_eq {s : State} (h : s.pc.toNat ≤ 255) :
    fetchLatch s =
      { ir := byteAt s 0
        opa := if s.pc.toNat + 1 ≤ 255 then byteAt s 1 else 0x00#8
        opb := if s.pc.toNat + 2 ≤ 255 then byteAt s 2 else 0x00#8
        opaAvail := decide (s.pc.toNat + 1 ≤ 255)
        opbAvail := decide (s.pc.toNat + 2 ≤ 255) } := by
  have h256 (n : Nat) : n < Config.memSize ↔ n ≤ 255 := by simp only [Config.memSize]; omega
  simp only [fetchLatch, fetchByte, byteAt, h256, Nat.add_zero, h, if_true]

theorem latched_opa {s : State} (h : s.pc.toNat + 1 < 256) : (fetchLatch s).opa = byteAt s 1 := fetchByte_of_lt h

theorem latched_opb {s : State} (h : s.pc.toNat + 2 < 256) : (fetchLatch s).opb = byteAt s 2 := fetchByte_of_lt h

/-- After the fetch, the kind at `pc` chooses what runs (R73, R76). -/
theorem decodeAndRun_eq {s : State} (h : s.pc.toNat < 256) :
    decodeAndRun s.latched =
      match kindAt s with
      | .unknown => .next (unknownStep (byteAt s 0) s.latched)
      | .hlt => execHlt s.latched
      | .ldi => execLdi (fetchLatch s).opa (fetchLatch s).opb s.latched
      | .prn => execPrn (fetchLatch s).opa s.latched
      | .mul => execMul (fetchLatch s).opa (fetchLatch s).opb s.latched
      | .push => execPush (fetchLatch s).opa s.latched
      | .pop => execPop (fetchLatch s).opa s.latched := by
  have hir : s.latched.latch.ir = byteAt s 0 := fetchByte_of_lt h
  simp only [decodeAndRun, hir, decode, kindAt]
  cases kindOf (byteAt s 0) <;> rfl

/-- What a step of a Running machine can lead to, and when. -/
inductive StepCase (s : State) : State → Prop where
  | offEnd : 256 ≤ s.pc.toNat → StepCase s (takeFault (.outOfBounds s.pc.toNat) s.latched)
  | skip : s.pc.toNat ≤ 255 → kindAt s = .unknown → StepCase s (unknownStep (byteAt s 0) s.latched)
  | hlt : s.pc.toNat ≤ 255 → kindAt s = .hlt → StepCase s { s.latched with status := .halted }
  | noOperandA : s.pc.toNat = 255 → takesRegister (kindAt s) → StepCase s (takeFault (.outOfBounds 256) s.latched)
  | noOperandB : s.pc.toNat = 254 → (kindAt s = .ldi ∨ kindAt s = .mul) →
      StepCase s (takeFault (.outOfBounds 256) s.latched)
  | badA : s.pc.toNat + (kindAt s).len ≤ 256 → takesRegister (kindAt s) → 8 ≤ (byteAt s 1).toNat →
      StepCase s (takeFault (.invalidRegister (byteAt s 1)) s.latched)
  | badB : s.pc.toNat ≤ 253 → kindAt s = .mul → (byteAt s 1).toNat < 8 → 8 ≤ (byteAt s 2).toNat →
      StepCase s (takeFault (.invalidRegister (byteAt s 2)) s.latched)
  | ldi (i : RegIndex) : s.pc.toNat ≤ 253 → kindAt s = .ldi → (byteAt s 1).toNat = i.val →
      StepCase s ((s.latched.setReg i (byteAt s 2)).advance 3)
  | prn (i : RegIndex) : s.pc.toNat ≤ 254 → kindAt s = .prn → (byteAt s 1).toNat = i.val →
      StepCase s ((s.latched.emitPrn (s.reg i)).advance 2)
  | mul (i j : RegIndex) : s.pc.toNat ≤ 253 → kindAt s = .mul → (byteAt s 1).toNat = i.val →
      (byteAt s 2).toNat = j.val → StepCase s ((s.latched.setReg i (aluMul (s.reg i) (s.reg j))).advance 3)
  | pushFault : s.pc.toNat ≤ 254 → kindAt s = .push → (byteAt s 1).toNat < 8 → s.sp = 0x00#8 →
      StepCase s (takeFault (.stackFault 0x00#8) s.latched)
  | push (i : RegIndex) : s.pc.toNat ≤ 254 → kindAt s = .push → (byteAt s 1).toNat = i.val → s.sp ≠ 0x00#8 →
      StepCase s ((pushed s.latched i).advance 2)
  | popFault : s.pc.toNat ≤ 254 → kindAt s = .pop → (byteAt s 1).toNat < 8 → 244 ≤ s.sp.toNat →
      StepCase s (takeFault (.stackFault s.sp) s.latched)
  | popSpFault : s.pc.toNat ≤ 254 → kindAt s = .pop → (byteAt s 1).toNat = 7 → s.sp.toNat < 244 →
      Memory.read s.mem s.sp.toNat = 0xFF#8 → StepCase s (takeFault (.stackFault 0xFF#8) s.latched)
  | pop (i : RegIndex) : s.pc.toNat ≤ 254 → kindAt s = .pop → (byteAt s 1).toNat = i.val → s.sp.toNat < 244 →
      (i = 7 → Memory.read s.mem s.sp.toNat ≠ 0xFF#8) → StepCase s ((popped s.latched i).advance 2)

/-- Every step of a Running machine is one of the cases. -/
theorem step_case {s : State} (h : s.status = .running) : ∃ t, step s = .next t ∧ StepCase s t := by
  rcases step_running h with ⟨h1, h2⟩ | ⟨h1, h2⟩
  · exact ⟨_, h2, .offEnd h1⟩
  have hpc : s.latched.pc = s.pc := rfl
  rw [h2, decodeAndRun_eq h1]
  have hreg (k : Kind) (hk : kindAt s = k) (hu : k ≠ .unknown) (hh : k ≠ .hlt) : takesRegister (kindAt s) := by
    rw [hk]; exact ⟨hu, hh⟩
  cases hk : kindAt s with
  | unknown => exact ⟨_, rfl, .skip (by omega) hk⟩
  | hlt => exact ⟨_, rfl, .hlt (by omega) hk⟩
  | ldi =>
    have hr := hreg _ hk (by decide) (by decide)
    have hl : (kindAt s).len = 3 := by rw [hk]; rfl
    rcases execLdi_cases s.latched (fetchLatch s).opa (fetchLatch s).opb with
      ⟨g1, g⟩ | ⟨g1, g2, g⟩ | ⟨g1, g2, g⟩ | ⟨i, g1, g2, g⟩ <;> rw [hpc] at *
    · rw [show s.pc.toNat + 1 = 256 by omega] at g; exact ⟨_, g, .noOperandA (by omega) hr⟩
    · rw [show s.pc.toNat + 2 = 256 by omega] at g; exact ⟨_, g, .noOperandB (by omega) (.inl hk)⟩
    · have ha := latched_opa (s := s) (by omega); exact ⟨_, g, by rw [ha] at g2 ⊢; exact .badA (by omega) hr g2⟩
    · rw [latched_opa (by omega)] at g2
      exact ⟨_, g, by rw [latched_opb g1]; exact .ldi i (by omega) hk g2⟩
  | prn =>
    have hr := hreg _ hk (by decide) (by decide)
    have hl : (kindAt s).len = 2 := by rw [hk]; rfl
    rcases execPrn_cases s.latched (fetchLatch s).opa with ⟨g1, g⟩ | ⟨g1, g2, g⟩ | ⟨i, g1, g2, g⟩ <;> rw [hpc] at *
    · rw [show s.pc.toNat + 1 = 256 by omega] at g; exact ⟨_, g, .noOperandA (by omega) hr⟩
    · have ha := latched_opa g1; exact ⟨_, g, by rw [ha] at g2 ⊢; exact .badA (by omega) hr g2⟩
    · rw [latched_opa g1] at g2; exact ⟨_, g, .prn i (by omega) hk g2⟩
  | mul =>
    have hr := hreg _ hk (by decide) (by decide)
    have hl : (kindAt s).len = 3 := by rw [hk]; rfl
    rcases execMul_cases s.latched (fetchLatch s).opa (fetchLatch s).opb with
      ⟨g1, g⟩ | ⟨g1, g2, g⟩ | ⟨g1, g2, g⟩ | ⟨g1, g2, g3, g⟩ | ⟨i, j, g1, g2, g3, g⟩ <;> rw [hpc] at *
    · rw [show s.pc.toNat + 1 = 256 by omega] at g; exact ⟨_, g, .noOperandA (by omega) hr⟩
    · rw [show s.pc.toNat + 2 = 256 by omega] at g; exact ⟨_, g, .noOperandB (by omega) (.inr hk)⟩
    · have ha := latched_opa (s := s) (by omega); exact ⟨_, g, by rw [ha] at g2 ⊢; exact .badA (by omega) hr g2⟩
    · have hb := latched_opb g1; rw [latched_opa (by omega)] at g2
      exact ⟨_, g, by rw [hb] at g3 ⊢; exact .badB (by omega) hk g2 g3⟩
    · rw [latched_opb g1] at g3; rw [latched_opa (by omega)] at g2
      exact ⟨_, g, .mul i j (by omega) hk g2 g3⟩
  | push =>
    have hr := hreg _ hk (by decide) (by decide)
    have hl : (kindAt s).len = 2 := by rw [hk]; rfl
    rcases execPush_cases s.latched (fetchLatch s).opa with
      ⟨g1, g⟩ | ⟨g1, g2, g⟩ | ⟨g1, g2, g3, g⟩ | ⟨i, g1, g2, g3, g⟩ <;> rw [hpc] at *
    · rw [show s.pc.toNat + 1 = 256 by omega] at g; exact ⟨_, g, .noOperandA (by omega) hr⟩
    · have ha := latched_opa g1; exact ⟨_, g, by rw [ha] at g2 ⊢; exact .badA (by omega) hr g2⟩
    all_goals rw [latched_opa g1] at g2
    · exact ⟨_, g, .pushFault (by omega) hk g2 g3⟩
    · exact ⟨_, g, .push i (by omega) hk g2 g3⟩
  | pop =>
    have hr := hreg _ hk (by decide) (by decide)
    have hl : (kindAt s).len = 2 := by rw [hk]; rfl
    rcases execPop_cases s.latched (fetchLatch s).opa with
      ⟨g1, g⟩ | ⟨g1, g2, g⟩ | ⟨g1, g2, g3, g⟩ | ⟨g1, g2, g3, g4, g⟩ | ⟨i, g1, g2, g3, g4, g⟩ <;> rw [hpc] at *
    · rw [show s.pc.toNat + 1 = 256 by omega] at g; exact ⟨_, g, .noOperandA (by omega) hr⟩
    · have ha := latched_opa g1; exact ⟨_, g, by rw [ha] at g2 ⊢; exact .badA (by omega) hr g2⟩
    all_goals rw [latched_opa g1] at g2
    · exact ⟨_, g, .popFault (by omega) hk g2 g3⟩
    · exact ⟨_, g, .popSpFault (by omega) hk g2 g3 g4⟩
    · exact ⟨_, g, .pop i (by omega) hk g2 g3 g4⟩

/-- Outside Running a step answers the same state. -/
theorem step_still {s t : State} (h : s.status ≠ .running) (hs : step s = .next t) : t = s := by
  cases hst : s.status <;> simp_all [step, cycle, stillStep]

/-- A step of a Running machine that answers `t` is one of the cases. -/
theorem step_next_case {s t : State} (h : s.status = .running) (hs : step s = .next t) : StepCase s t := by
  obtain ⟨u, hu, hc⟩ := step_case h
  rw [hs] at hu
  cases hu
  exact hc

/-- A terminal state steps to itself. -/
theorem step_terminal {s : State} (h : Terminal s) : step s = .next s := by
  rcases h with h | h <;> simp [step, cycle, h, stillStep]

/-- One step of a longer run. -/
theorem run_succ {n : Nat} {s t : State} (h : step s = .next t) :
    Host.Core.run core (n + 1) s = Host.Core.run core n t := by
  have h' : core.step s = .next t := h
  simp only [Host.Core.run, h']

/-- A run from a terminal state stays there. -/
theorem run_terminal {n : Nat} {s : State} (h : Terminal s) : Host.Core.run core n s = .next s := by
  induction n with
  | zero => rfl
  | succ n ih => exact (run_succ (step_terminal h)).trans ih

end Sys2Proof.Machine
end

