-- ==== Sys2Proof/Tests/Slice0.lean ====
section
/-! SUPPORT. The model's own tests: the well-formedness smoke test, instruction words written out from R50 and R55, one
or two single steps an instruction with the results of spec/95_test_vectors.md, and for each statement with hypotheses
a concrete state and operands that meet them. -/

namespace Sys2Proof.Tests

open Sys2Proof.Machine

/-- A Running machine with these bytes at `pc` and these registers, over the reset state. -/
def at_ (pc : Nat) (bytes : List Byte) (regs : List (RegIndex × Byte)) : State :=
  regs.foldl (fun s r => s.setReg r.1 r.2)
    { State.reset with mem := Memory.writeAll [] pc bytes, pc := BitVec.ofNat 9 pc, status := .running }

/-- The state a step leads to. -/
def after (s : State) : Option State :=
  match step s with
  | .next t => some t
  | .fault _ => none
  | .refused _ => none

/-- A property of the state a step leads to. -/
def afterHas (s : State) (p : State → Bool) : Bool :=
  match after s with
  | some t => p t
  | none => false

/-- A machine in this lifecycle state, otherwise reset. -/
def inStatus (st : Status) : State := { State.reset with status := st }

/-- The fault record a step leaves. -/
def faultAfter (s : State) : Option FaultRecord := (after s).map (·.fault)

/-! ### Well-formedness: an ill-formed term for each check (R53) -/

theorem test_wellFormed_refuses_each_bad_register :
    [Instr.ldi 8 5, .prn 8, .mul 8 0, .mul 0 8, .push 255, .pop 9].map Instr.wellFormed =
      [false, false, false, false, false, false] := by decide

theorem test_wellFormed_accepts_register_7_and_any_immediate :
    [Instr.hlt, .ldi 7 255, .prn 7, .mul 7 7, .push 7, .pop 7].map Instr.wellFormed =
      [true, true, true, true, true, true] := by decide

/-! ### Words written out bit by bit from R55 -/

theorem test_decode_hlt : decode 0b00000001#8 0x00#8 0x00#8 = .known .hlt := by decide
theorem test_decode_ldi : decode 0b10000010#8 0b00000111#8 0b11111111#8 = .known (.ldi 7#8 255#8) := by decide
theorem test_decode_prn : decode 0b01000111#8 0b00000010#8 0x00#8 = .known (.prn 2#8) := by decide
theorem test_decode_mul : decode 0b10100010#8 0b00000001#8 0b00000010#8 = .known (.mul 1#8 2#8) := by decide
theorem test_decode_push : decode 0b01000101#8 0b00000100#8 0x00#8 = .known (.push 4#8) := by decide
theorem test_decode_pop : decode 0b01000110#8 0b00000011#8 0x00#8 = .known (.pop 3#8) := by decide

/-- V1: 0x00 and 0xA0 and the one-bit neighbours of the opcodes listed there are unknown. -/
theorem test_decode_unknown :
    [0x00#8, 0xA0#8, 0x02#8, 0x03#8, 0x44#8, 0x48#8, 0x81#8, 0x83#8, 0xA1#8, 0xA3#8, 0xFF#8].map kindOf =
      List.replicate 11 .unknown := by decide

/-- The opcode table's numbering: LDI R1,0x2A has its first byte in bits 7:0. -/
theorem test_decodeTableWord_ldi : decodeTableWord 24 0x2A0182 = some (.ldi 1#8 0x2A#8) := by decide

/-- The bits above the row's are zero: HLT, PRN R0 and 0x00. -/
theorem test_decodeTableWord_short :
    decodeTableWord 8 0x01 = some .hlt ∧ decodeTableWord 8 0x0147 = some (.prn 0#8) ∧ decodeTableWord 8 0x00 = none := by
  decide

/-! ### Single steps (spec/95_test_vectors.md) -/

/-- V7 row 2: HLT in the last byte of memory halts in place. -/
theorem test_hlt_at_255 : afterHas (at_ 255 [0x01] []) (fun t => t.status = .halted ∧ t.pc = 255#9) = true := by decide

/-- V4 row 2: LDI R7,0 moves the stack pointer. -/
theorem test_ldi_moves_sp : afterHas (at_ 10 [0x82, 0x07, 0x00] []) (fun t => t.sp = 0#8 ∧ t.pc = 13#9) = true := by
  decide

/-- V4 row 7: the missing operand byte is reported before the bad register index. -/
theorem test_ldi_bounds_before_index :
    faultAfter (at_ 254 [0x82, 0x09] []) = some ⟨.outOfBounds, 254#9, 256#9⟩ := by decide

/-- V4 row 10: PRN R7 emits the stack pointer. -/
theorem test_prn_sp : afterHas (at_ 3 [0x47, 0x07] []) (fun t => t.out = [244#8] ∧ t.pc = 5#9) = true := by decide

/-- V4 row 12: PRN in the last two bytes of memory leaves `pc` = 256. -/
theorem test_prn_ends_memory :
    afterHas (at_ 254 [0x47, 0x00] []) (fun t => t.out = [0#8] ∧ t.pc = 256#9 ∧ t.status = .running) = true := by decide

/-- V5 row 2: 200 times 200 is 64. -/
theorem test_mul_wraps :
    afterHas (at_ 6 [0xA2, 0x00, 0x01] [(0, 200), (1, 200)]) (fun t => t.reg 0 = 64#8 ∧ t.reg 1 = 200#8) = true := by
  decide

/-- V5 row 9: the first bad index is the one reported. -/
theorem test_mul_reports_a_first :
    faultAfter (at_ 0 [0xA2, 0x09, 0x0A] []) = some ⟨.invalidRegister, 0#9, 9#9⟩ := by decide

/-- V6 row 2: PUSH over its own opcode byte. -/
theorem test_push_over_itself :
    afterHas (at_ 0 [0x45, 0x00] [(0, 0x99), (7, 1)])
      (fun t => t.sp = 0#8 ∧ Memory.read t.mem 0 = 0x99#8 ∧ t.pc = 2#9) = true := by decide

/-- V6 row 5: PUSH R7 stores the decremented stack pointer. -/
theorem test_push_sp :
    afterHas (at_ 0 [0x45, 0x07] []) (fun t => t.sp = 0xF3#8 ∧ Memory.read t.mem 0xF3 = 0xF3#8) = true := by decide

/-- V6 row 11: POP reads the byte at SP, here the program's own first byte. -/
theorem test_pop_reads_at_sp :
    afterHas { at_ 4 [0x46, 0x03] [(7, 0)] with mem := Memory.writeAll [] 0 [0x82, 0, 0, 0, 0x46, 0x03] }
      (fun t => t.reg 3 = 0x82#8 ∧ t.sp = 1#8) = true := by decide

/-- V6 row 13: POP R7 of the byte 255 is a StackFault and changes nothing. -/
theorem test_pop_sp_of_255 :
    afterHas { at_ 0 [0x46, 0x07] [(7, 0xF3)] with mem := [(0, 0x46), (1, 0x07), (0xF3, 0xFF)] }
      (fun t => t.fault = ⟨.stackFault, 0#9, 255#9⟩ ∧ t.sp = 0xF3#8 ∧ t.status = .faulted) = true := by decide

/-- V7 row 9: an unknown opcode moves `pc` by one whatever its top bits. -/
theorem test_unknown_opcode :
    afterHas (at_ 9 [0xC1] []) (fun t => t.diag = [⟨9#9, 0xC1#8⟩] ∧ t.pc = 10#9 ∧ t.status = .running) = true := by
  decide

/-- V7 row 8: the opcode fetch at 256 faults. -/
theorem test_fetch_at_256 : faultAfter (at_ 256 [] []) = some ⟨.outOfBounds, 256#9, 256#9⟩ := by decide

/-- V8 rows 2 and 3: a load of six bytes, and of none. -/
theorem test_load :
    (command (.load (.bytes [0x82, 0, 8, 0x47, 0, 1])) State.reset).state.status = .loaded ∧
    (command (.load (.bytes [])) State.reset) = ⟨State.reset, .loadError .loadParseEmpty⟩ := by decide

/-- V8 rows 6 and 10: a start that is refused. -/
theorem test_start_refused :
    command .start State.reset = ⟨State.reset, .stateError⟩ ∧
    command .start (inStatus .faulted) = ⟨inStatus .faulted, .stateError⟩ := by decide

/-- V2: ALU vectors, MUL then ADD. -/
theorem test_alu :
    (alu 1#2 3#8 86#8).y = 2#8 ∧ (alu 1#2 17#8 241#8).y = 1#8 ∧ (alu 0#2 128#8 3#8).y = 131#8 ∧
      (alu 0#2 255#8 255#8).y = 254#8 := by decide

/-- V3: the fetch unit near the end of memory. -/
theorem test_fetchUnit :
    fetchUnit 254#9 [(252, 0x11), (253, 0x22), (254, 0x33), (255, 0x44)] =
      ⟨0x33#8, false, 0x44#8, 0#8, true, false⟩ := by decide

/-- P1's numeral: PRN of 8 shows `8`, of 244 `244`, of 0 `0`. -/
theorem test_prnNumeral : [8#8, 244#8, 0#8].map prnNumeral = [['8'], ['2', '4', '4'], ['0']] := by decide

/-! ### Witnesses: a concrete state and operands that meet each statement's hypotheses, each clause at a boundary -/

/-- The state a step leads to, when it leads to one. -/
def next (s : State) : State := (after s).getD State.reset

theorem step_eq_next {s : State} (h : (after s).isSome = true) : step s = .next (next s) := by
  unfold next
  unfold after at *
  cases hs : step s with
  | next t => rfl
  | fault f => simp [hs] at h
  | refused r => simp [hs] at h

theorem witness_OnlyResetLeavesATerminalState :
    Terminal (inStatus .halted) ∧ Terminal (inStatus .faulted) ∧ Command.start ≠ .reset ∧ Command.load .unreadable ≠ .reset :=
  ⟨.inl rfl, .inr rfl, by decide, by decide⟩

/-- A reachable Loaded state, over the image of one HLT. -/
def loadedHlt : State := (command (.load (.bytes [0x01#8])) State.reset).state

theorem witness_StartRunsALoadedMachine : loadedHlt.status = .loaded ∧ Inv loadedHlt := by
  refine ⟨rfl, ⟨by decide, by decide, by decide, by decide, by decide, by decide, by decide, fun _ => ?_⟩⟩
  refine ⟨⟨rfl, rfl, rfl, rfl, rfl, rfl⟩, [0x01#8], by decide, by decide, fun a => ?_⟩
  cases a with
  | zero => rfl
  | succ a => rfl

theorem witness_LoadIsAllOrNothing :
    Inv State.reset ∧ State.reset.status = .idle ∧
    (1 ≤ ([0x01#8] : List Byte).length ∧ ([0x01#8] : List Byte).length ≤ 256) ∧
    (1 ≤ (List.replicate 256 0x01#8).length ∧ (List.replicate 256 0x01#8).length ≤ 256) ∧
    ([] : List Byte).length = 0 ∧ 256 < (List.replicate 257 0x01#8).length ∧
    Inv loadedHlt ∧ loadedHlt.status ≠ .idle := by
  refine ⟨?_, rfl, by decide, ?_, rfl, ?_, witness_StartRunsALoadedMachine.2, by decide⟩
  · exact ⟨by decide, by decide, by decide, by decide, by decide, by decide, fun _ => rfl, fun h => nomatch h⟩
  · simp only [List.length_replicate]; decide
  · simp only [List.length_replicate]; decide

theorem witness_MisplacedCommandsAreRefused :
    State.reset.status ≠ .loaded ∧ (inStatus .running).status ≠ .loaded ∧ (inStatus .running).status ≠ .idle ∧
    (inStatus .faulted).status ≠ .idle := by decide

theorem witness_OpcodeMapIsComplete :
    0x00#8 ∉ [0x01#8, 0x82#8, 0x47#8, 0xA2#8, 0x45#8, 0x46#8] ∧
    0xA0#8 ∉ [0x01#8, 0x82#8, 0x47#8, 0xA2#8, 0x45#8, 0x46#8] := by decide

theorem witness_DecodeAndEncodeAgree :
    decodeBytes [0x47#8, 0x08#8, 0xFF#8] = .ok (.prn 0x08#8, [0xFF#8]) ∧
    [0x47#8, 0x08#8, 0xFF#8] = encode (.prn 0x08#8) ++ [0xFF#8] := ⟨rfl, rfl⟩

theorem witness_NothingMovesOutsideRunning :
    State.reset.status ≠ .running ∧ (inStatus .halted).status ≠ .running := by decide

theorem witness_OpcodeFetchPastTheEndFaults :
    (at_ 256 [] []).status = .running ∧ (at_ 256 [] []).pc = 256#9 ∧ (at_ 255 [] []).pc.toNat ≤ 255 := by decide

theorem witness_FetchLatchesThreeBytes :
    (at_ 254 [0x47, 0x00] []).status = .running ∧ (at_ 254 [0x47, 0x00] []).pc.toNat ≤ 255 ∧
    step (at_ 254 [0x47, 0x00] []) = .next (next (at_ 254 [0x47, 0x00] [])) :=
  ⟨by decide, by decide, step_eq_next (by decide)⟩

theorem witness_StepRunsTheDecodedInstruction :
    (at_ 255 [0x01] []).status = .running ∧ (at_ 255 [0x01] []).pc.toNat ≤ 255 ∧
    decode (byteAt (at_ 255 [0x01] []) 0) (if (at_ 255 [0x01] []).pc.toNat + 1 ≤ 255 then byteAt (at_ 255 [0x01] []) 1 else 0x00#8)
      (if (at_ 255 [0x01] []).pc.toNat + 2 ≤ 255 then byteAt (at_ 255 [0x01] []) 2 else 0x00#8) = .known .hlt := by decide

theorem witness_StepRunsTheEncodedInstruction :
    (at_ 253 [0xA2, 0x01, 0x07] []).status = .running ∧
    (at_ 253 [0xA2, 0x01, 0x07] []).pc.toNat + (Instr.mul 1 7).len ≤ 256 ∧
    ∀ k, k < (Instr.mul 1 7).len → byteAt (at_ 253 [0xA2, 0x01, 0x07] []) k = (encode (.mul 1 7)).getD k 0x00#8 := by
  decide

theorem witness_UnknownOpcodeIsReportedAndSkipped :
    (at_ 255 [0xA0] []).status = .running ∧ (at_ 255 [0xA0] []).pc.toNat ≤ 255 ∧ kindAt (at_ 255 [0xA0] []) = .unknown := by
  decide

theorem witness_PcMovesByTheInstructionLength :
    (at_ 253 [0x82, 0x00, 0x01] []).status = .running ∧ (at_ 253 [0x82, 0x00, 0x01] []).pc.toNat ≤ 256 ∧
    step (at_ 253 [0x82, 0x00, 0x01] []) = .next (next (at_ 253 [0x82, 0x00, 0x01] [])) ∧
    (next (at_ 253 [0x82, 0x00, 0x01] [])).status = .running ∧
    step (at_ 256 [] []) = .next (next (at_ 256 [] [])) ∧ (next (at_ 256 [] [])).status ≠ .running :=
  ⟨by decide, by decide, step_eq_next (by decide), by decide, step_eq_next (by decide), by decide⟩

theorem witness_HltIsTheOnlyWayToHalted :
    (at_ 255 [0x01] []).status = .running ∧ (at_ 255 [0x01] []).pc.toNat ≤ 255 ∧ kindAt (at_ 255 [0x01] []) = .hlt := by
  decide

theorem witness_EveryRunEndsWithin257Steps :
    (at_ 0 [] []).status = .running ∧ (at_ 0 [] []).pc.toNat ≤ 256 ∧ (at_ 256 [] []).pc.toNat ≤ 256 := by decide

theorem witness_LdiLoadsTheImmediate :
    ((at_ 253 [] []).pc.toNat ≤ 253 ∧ (7#8 : Byte).toNat = (7 : RegIndex).val) ∧
    ((at_ 254 [] []).pc.toNat = 254 ∨ (at_ 254 [] []).pc.toNat = 255) ∧
    ((at_ 255 [] []).pc.toNat = 254 ∨ (at_ 255 [] []).pc.toNat = 255) ∧
    ((at_ 253 [] []).pc.toNat ≤ 253 ∧ 8 ≤ (8#8 : Byte).toNat) := by decide

theorem witness_PrnEmitsTheRegister :
    ((at_ 254 [] []).pc.toNat ≤ 254 ∧ (0#8 : Byte).toNat = (0 : RegIndex).val) ∧ (at_ 255 [] []).pc.toNat = 255 ∧
    ((at_ 254 [] []).pc.toNat ≤ 254 ∧ 8 ≤ (255#8 : Byte).toNat) := by decide

theorem witness_MulMultipliesModulo256 :
    ((at_ 253 [] []).pc.toNat ≤ 253 ∧ (7#8 : Byte).toNat = (7 : RegIndex).val ∧ (7#8 : Byte).toNat = (7 : RegIndex).val) ∧
    ((at_ 254 [] []).pc.toNat = 254 ∨ (at_ 254 [] []).pc.toNat = 255) ∧
    ((at_ 253 [] []).pc.toNat ≤ 253 ∧ 8 ≤ (8#8 : Byte).toNat) ∧
    ((at_ 253 [] []).pc.toNat ≤ 253 ∧ (7#8 : Byte).toNat ≤ 7 ∧ 8 ≤ (8#8 : Byte).toNat) := by decide

theorem witness_PushStoresBelowTheStackPointer :
    (Memory.wf (at_ 254 [0x45, 0x07] [(7, 1)]).mem = true ∧ (at_ 254 [0x45, 0x07] [(7, 1)]).pc.toNat ≤ 254 ∧
      (7#8 : Byte).toNat = (7 : RegIndex).val ∧ (at_ 254 [0x45, 0x07] [(7, 1)]).sp ≠ 0x00#8) ∧
    (at_ 254 [0x45, 0x07] [(7, 255)]).sp ≠ 0x00#8 ∧ (at_ 255 [] []).pc.toNat = 255 ∧ 8 ≤ (8#8 : Byte).toNat ∧
    ((at_ 254 [] [(7, 0)]).pc.toNat ≤ 254 ∧ (7#8 : Byte).toNat ≤ 7 ∧ (at_ 254 [] [(7, 0)]).sp = 0x00#8) := by decide

/-- A POP of the byte 255 at 0xF3. -/
def popOf255 : State := { at_ 254 [] [(7, 0xF3)] with mem := [(0xF3, 0xFF)] }

theorem witness_PopLoadsFromTheStackPointer :
    ((at_ 254 [] [(7, 0xF3)]).pc.toNat ≤ 254 ∧ (6#8 : Byte).toNat = (6 : RegIndex).val ∧ (6 : RegIndex) ≠ 7 ∧
      (at_ 254 [] [(7, 0xF3)]).sp.toNat < 0xF4) ∧
    ((at_ 254 [] [(7, 0)]).sp.toNat < 0xF4 ∧ (7#8 : Byte).toNat = 7 ∧
      Memory.read (at_ 254 [] [(7, 0)]).mem (at_ 254 [] [(7, 0)]).sp.toNat ≠ 0xFF#8) ∧
    (at_ 255 [] []).pc.toNat = 255 ∧ 8 ≤ (8#8 : Byte).toNat ∧
    ((at_ 254 [] []).pc.toNat ≤ 254 ∧ (0#8 : Byte).toNat ≤ 7 ∧ 0xF4 ≤ (at_ 254 [] []).sp.toNat) ∧
    (popOf255.pc.toNat ≤ 254 ∧ (7#8 : Byte).toNat = 7 ∧ popOf255.sp.toNat < 0xF4 ∧
      Memory.read popOf255.mem popOf255.sp.toNat = 0xFF#8) := by decide

/-- Two registers pushed and popped from the empty stack, and from SP = 2. -/
theorem witness_PushesThenPopsReverseTheItems :
    Memory.wf (at_ 0 [] []).mem = true ∧ (7 : RegIndex) ∉ [0, 1] ∧ (7 : RegIndex) ∉ [2, 0] ∧
    ([2, 0] : List RegIndex).length = ([0, 1] : List RegIndex).length ∧
    ([0, 1] : List RegIndex).length ≤ (at_ 0 [] []).sp.toNat ∧ (at_ 0 [] []).sp.toNat ≤ 0xF4 ∧
    ([0, 1] : List RegIndex).length ≤ (at_ 248 [] [(7, 2)]).sp.toNat ∧
    (at_ 248 [] [(7, 2)]).pc.toNat + 4 * ([0, 1] : List RegIndex).length ≤ 256 ∧ ([2, 0] : List RegIndex).Nodup := by
  decide

theorem witness_OutOfBoundsExactlyInFetch :
    ((at_ 256 [] []).status = .running ∧ (at_ 256 [] []).pc.toNat = 256) ∧
    ((at_ 255 [0x46] []).status = .running ∧ (at_ 255 [0x46] []).pc.toNat = 255 ∧ takesRegister (kindAt (at_ 255 [0x46] []))) ∧
    ((at_ 254 [0xA2] []).status = .running ∧ (at_ 254 [0xA2] []).pc.toNat = 254 ∧ kindAt (at_ 254 [0xA2] []) = .mul) :=
  ⟨by decide, ⟨by decide, by decide, by unfold takesRegister; decide⟩, by decide⟩

theorem witness_InvalidRegisterExactlyAboveSeven :
    ((at_ 254 [0x47, 0x08] []).status = .running ∧ (at_ 254 [0x47, 0x08] []).pc.toNat + (kindAt (at_ 254 [0x47, 0x08] [])).len ≤ 256 ∧
      8 ≤ (byteAt (at_ 254 [0x47, 0x08] []) 1).toNat) ∧
    (kindAt (at_ 253 [0xA2, 0x07, 0x08] []) = .mul ∧ (byteAt (at_ 253 [0xA2, 0x07, 0x08] []) 1).toNat ≤ 7 ∧
      8 ≤ (byteAt (at_ 253 [0xA2, 0x07, 0x08] []) 2).toNat) := by decide

theorem witness_IllFormedInstructionsRaiseInvalidRegister :
    (at_ 254 [] []).pc.toNat + (Instr.prn 8).len ≤ 256 ∧ (Instr.prn 8).wellFormed = false ∧
    (at_ 254 [] []).pc.toNat + (Instr.prn 7).len ≤ 256 ∧ (Instr.prn 7).wellFormed = true := by decide

theorem witness_StackFaultExactlyAtTheBounds :
    ((at_ 254 [0x45, 0x07] [(7, 0)]).status = .running ∧ (at_ 254 [0x45, 0x07] [(7, 0)]).pc.toNat ≤ 254 ∧
      (byteAt (at_ 254 [0x45, 0x07] [(7, 0)]) 1).toNat ≤ 7 ∧ kindAt (at_ 254 [0x45, 0x07] [(7, 0)]) = .push ∧
      (at_ 254 [0x45, 0x07] [(7, 0)]).sp = 0x00#8) ∧
    (kindAt (at_ 0 [0x46, 0x00] []) = .pop ∧ 0xF4 ≤ (at_ 0 [0x46, 0x00] []).sp.toNat) ∧
    (popOf255.sp.toNat < 0xF4 ∧ Memory.read popOf255.mem popOf255.sp.toNat = 0xFF#8) := by decide

theorem witness_UnsupportedOperationIsUnreachable :
    2 ≤ (2#2).toNat ∧ 2 ≤ (3#2).toNat ∧ (at_ 0 [] []).status = .running := by decide

theorem witness_AFaultingStepHasNoPartialEffect :
    (at_ 0 [0x45, 0x00] [(7, 0)]).status = .running ∧
    step (at_ 0 [0x45, 0x00] [(7, 0)]) = .next (next (at_ 0 [0x45, 0x00] [(7, 0)])) ∧
    (next (at_ 0 [0x45, 0x00] [(7, 0)])).status = .faulted := ⟨by decide, step_eq_next (by decide), by decide⟩

theorem witness_TheFaultRecordIsWrittenOnce :
    step (at_ 0 [0x46, 0x00] []) = .next (next (at_ 0 [0x46, 0x00] [])) ∧
    (next (at_ 0 [0x46, 0x00] [])).fault ≠ (at_ 0 [0x46, 0x00] []).fault ∧ Command.start ≠ .reset :=
  ⟨step_eq_next (by decide), by decide, by decide⟩

theorem witness_OnlyPushWritesMemory :
    (at_ 0 [0x45, 0x07] []).status = .running ∧ (at_ 0 [0x45, 0x07] []).pc.toNat ≤ 256 ∧
    step (at_ 0 [0x45, 0x07] []) = .next (next (at_ 0 [0x45, 0x07] [])) ∧
    Memory.read (next (at_ 0 [0x45, 0x07] [])).mem 0xF3 ≠ Memory.read (at_ 0 [0x45, 0x07] []).mem 0xF3 :=
  ⟨by decide, by decide, step_eq_next (by decide), by decide⟩

theorem witness_EachInstructionWritesItsOwnRegisters :
    (at_ 0 [0x82, 0x07, 0x00] []).status = .running ∧ (at_ 0 [0x82, 0x07, 0x00] []).pc.toNat ≤ 256 ∧
    step (at_ 0 [0x82, 0x07, 0x00] []) = .next (next (at_ 0 [0x82, 0x07, 0x00] [])) ∧
    (next (at_ 0 [0x82, 0x07, 0x00] [])).reg 7 ≠ (at_ 0 [0x82, 0x07, 0x00] []).reg 7 :=
  ⟨by decide, by decide, step_eq_next (by decide), by decide⟩

theorem witness_TracesGrowAndSteerNothing :
    step (at_ 3 [0x47, 0x07] []) = .next (next (at_ 3 [0x47, 0x07] [])) := step_eq_next (by decide)

theorem witness_NoStepReadsAnEarlierLatch : (at_ 0 [0x01] []).status = .running := by decide

/-- PUSH R0 at 6 with SP = 9 stores at 8, where the next instruction starts (P10). -/
theorem witness_AStoreIsSeenByTheNextFetch :
    Memory.wf (at_ 6 [0x45, 0x00] [(0, 1), (7, 9)]).mem = true ∧ (0 : RegIndex) ≠ 7 ∧
    step (at_ 6 [0x45, 0x00] [(0, 1), (7, 9)]) = .next (next (at_ 6 [0x45, 0x00] [(0, 1), (7, 9)])) ∧
    (∃ t, exec (.push (BitVec.ofNat 8 (0 : RegIndex).val)) (at_ 6 [0x45, 0x00] [(0, 1), (7, 9)]) = .next t ∧
      t.status ≠ .faulted ∧ t.pc.toNat + 1 = (at_ 6 [0x45, 0x00] [(0, 1), (7, 9)]).sp.toNat) :=
  ⟨by decide, by decide, step_eq_next (by decide), _, rfl, by decide, by decide⟩

/-- A Running state that meets the invariant, and its step. -/
theorem witness_EveryStepKeepsTheInvariant :
    Inv (inStatus .running) ∧ step (inStatus .running) = .next (next (inStatus .running)) :=
  ⟨⟨by decide, by decide, by decide, by decide, by decide, by decide, by decide, fun h => nomatch h⟩,
    step_eq_next (by decide)⟩

theorem witness_EveryCommandKeepsTheInvariant : Inv loadedHlt := witness_StartRunsALoadedMachine.2

theorem witness_ReachableStatesMeetR26 : Reachable State.reset ∧ Reachable loadedHlt :=
  ⟨.reset, .command (.load (.bytes [0x01#8])) .reset⟩

theorem witness_SequencerUnitFollowsTheCommands :
    State.reset.status ≠ .running ∧ (inStatus .halted).status ≠ .running ∧ imageError [0x01#8] = none := by decide

theorem witness_LoadIsTheLoaderPortsWrites :
    State.reset.status = .idle ∧ 1 ≤ ([0x01#8] : List Byte).length ∧ (List.replicate 256 0x01#8).length ≤ 256 := by
  simp only [List.length_replicate]; decide

theorem witness_TheFiveUnitsComputeTheStep :
    (at_ 256 [] []).status = .running ∧ (at_ 256 [] []).pc.toNat ≤ 256 := by decide

theorem witness_APlacedInstructionRunsNext : decodeTableWord 24 0x0100A2 = some (.mul 0 1) := by decide

end Sys2Proof.Tests
end

/-! Proofs of the state family: what one step and one host command do to each piece of the state, the invariant of
reachable states, and the independence of a step from the traces and from earlier latches. -/

namespace Sys2Proof.Machine

/-! ### What a step does to memory, to `pc`, to the registers and to the control state -/

section
variable {s t : State}

/-- PUSH below a stack pointer that is not 0 stores one byte below it: the subtraction does not wrap. -/
theorem sp_pred_toNat_succ {v : Byte} (h : v ≠ 0x00#8) : (v - 1#8).toNat + 1 = v.toNat := by
  bv_omega

theorem StepCase.mem_eq_or_push (h : StepCase s t) :
    t.mem = s.mem ∨
    s.pc.toNat ≤ 254 ∧ kindAt s = .push ∧ s.sp ≠ 0x00#8 ∧ ∃ v, t.mem = Memory.write s.mem (s.sp - 1#8).toNat v := by
  cases h with
  | push i hpc hk _ hsp => exact .inr ⟨hpc, hk, hsp, _, rfl⟩
  | _ => exact .inl rfl

theorem StepCase.mem_wf (h : StepCase s t) (hs : Memory.wf s.mem = true) : Memory.wf t.mem = true := by
  rcases h.mem_eq_or_push with hm | ⟨-, -, -, v, hm⟩ <;> rw [hm]
  · exact hs
  · exact Memory.wf_write v (BitVec.isLt _) hs

theorem State.advance_pc_le {n : Nat} (h : s.pc.toNat + n ≤ 256) : (s.advance n).pc.toNat ≤ 256 := by
  rw [State.advance_pc, BitVec.toNat_ofNat, Nat.mod_eq_of_lt (by omega)]
  exact h

theorem StepCase.pc_le (h : StepCase s t) (hs : s.pc.toNat ≤ 256) : t.pc.toNat ≤ 256 := by
  cases h with
  | skip hpc _ => exact State.advance_pc_le (Nat.succ_le_succ hpc)
  | ldi _ hpc | mul _ _ hpc => exact State.advance_pc_le (Nat.add_le_add_right hpc 3)
  | prn _ hpc | push _ hpc | pop _ hpc => exact State.advance_pc_le (Nat.add_le_add_right hpc 2)
  | _ => exact hs

/-- A step either takes a fatal fault other than UnsupportedOperation, or leaves the fault record alone and the machine
Running or Halted (R81, R164, R169). -/
theorem StepCase.faults_or_completes (h : StepCase s t) (hs : s.status = .running) :
    (∃ r : Raise, r.code ≠ .unsupportedOperation ∧ t = takeFault r s.latched) ∨
    ((t.status = .running ∨ t.status = .halted) ∧ t.fault = s.fault) := by
  cases h with
  | offEnd | noOperandA | noOperandB | badA | badB | pushFault | popFault | popSpFault =>
    exact .inl ⟨_, by simp [Raise.code], rfl⟩
  | hlt => exact .inr ⟨.inr rfl, rfl⟩
  | skip | ldi | prn | mul | push | pop => exact .inr ⟨.inl hs, rfl⟩

/-- POP changes only the register it names and the stack pointer. -/
theorem popped_reg_ne {i j : RegIndex} (hi : j ≠ i) (h7 : j ≠ 7) : (popped s i).reg j = s.reg j := by
  rw [popped, State.reg_setSp, if_neg h7, State.reg_setReg_ne _ _ _ _ hi]

theorem StepCase.reg_eq_or_own (h : StepCase s t) (j : RegIndex) :
    t.reg j = s.reg j ∨
    ((kindAt s = .ldi ∨ kindAt s = .mul ∨ kindAt s = .pop) ∧ (byteAt s 1).toNat = j.val) ∨
    ((kindAt s = .push ∨ kindAt s = .pop) ∧ j = 7) := by
  cases h with
  | ldi i _ hk ha =>
    by_cases hj : j = i
    · exact .inr (.inl ⟨.inl hk, hj ▸ ha⟩)
    · exact .inl (State.reg_setReg_ne s.latched _ _ _ hj)
  | mul i _ _ hk ha _ =>
    by_cases hj : j = i
    · exact .inr (.inl ⟨.inr (.inl hk), hj ▸ ha⟩)
    · exact .inl (State.reg_setReg_ne s.latched _ _ _ hj)
  | push i _ hk _ _ =>
    by_cases hj : j = 7
    · exact .inr (.inr ⟨.inl hk, hj⟩)
    · exact .inl (State.reg_setReg_ne s.latched _ _ _ hj)
  | pop i _ hk ha _ _ =>
    by_cases hj : j = i
    · exact .inr (.inl ⟨.inr (.inr hk), hj ▸ ha⟩)
    · by_cases h7 : j = 7
      · exact .inr (.inr ⟨.inr hk, h7⟩)
      · exact .inl (popped_reg_ne (s := s.latched) hj h7)
  | _ => exact .inl rfl

end

/-! ### What a host command does -/

/-- An image loads exactly when it has 1 to 256 bytes (R192). -/
theorem imageError_eq_none_iff (image : List Byte) :
    imageError image = none ↔ 1 ≤ image.length ∧ image.length ≤ 256 := by
  rw [imageError]
  split_ifs with h0 h256
  · simp [h0]
  · exact iff_of_false (by simp) fun h => Nat.not_lt.2 h.2 h256
  · exact iff_of_true rfl ⟨Nat.one_le_iff_ne_zero.2 h0, Nat.not_lt.1 h256⟩

/-- A command resets, is without effect, loads an image into an Idle machine, or starts a Loaded one (R191). -/
theorem command_state_cases (c : Command) (s : State) :
    (c = .reset ∧ (command c s).state = State.reset) ∨
    (command c s).state = s ∨
    (∃ image : List Byte, s.status = .idle ∧ 1 ≤ image.length ∧ image.length ≤ 256 ∧
      (command c s).state = loadImage image s) ∨
    (s.status = .loaded ∧ (command c s).state = { s with status := .running }) := by
  cases c with
  | reset => exact .inl ⟨rfl, rfl⟩
  | start =>
    cases hs : s.status with
    | loaded => exact .inr (.inr (.inr ⟨rfl, by simp [command, hostStart, hs]⟩))
    | _ => exact .inr (.inl (by simp [command, hostStart, hs, refuseCommand]))
  | load source =>
    cases hs : s.status with
    | idle =>
      cases source with
      | unreadable => exact .inr (.inl (by simp [command, hostLoad, hs, loadIdle]))
      | bytes image =>
        cases he : imageError image with
        | some e => exact .inr (.inl (by simp [command, hostLoad, hs, loadIdle, he]))
        | none =>
          obtain ⟨h1, h256⟩ := (imageError_eq_none_iff image).1 he
          exact .inr (.inr (.inl ⟨image, rfl, h1, h256, by simp [command, hostLoad, hs, loadIdle, he]⟩))
    | _ => exact .inr (.inl (by simp [command, hostLoad, hs, refuseCommand]))

/-! ### The invariant: one lemma for each kind of state a step or a command leads to -/

/-- A Running or Halted state asks only for its `pc`, its memory and a clear fault record. -/
theorem Inv.of_unfaulted {t : State} (hst : t.status = .running ∨ t.status = .halted) (hpc : t.pc.toNat ≤ 256)
    (hwf : Memory.wf t.mem = true) (hf : t.fault = State.reset.fault) : Inv t := by
  have hcode : t.fault.code = .noFault := by rw [hf]; rfl
  have hlive : t.status ≠ .idle ∧ t.status ≠ .loaded ∧ t.status ≠ .faulted := by
    rcases hst with h | h <;> simp [h]
  obtain ⟨hidle, hloaded, hfaulted⟩ := hlive
  exact
    { pc_le := hpc
      mem_wf := hwf
      fault_iff := iff_of_false (not_not_intro hcode) hfaulted
      fault_pc := fun h => absurd h hfaulted
      fault_reachable := by simp [hcode]
      fault_clear := fun _ => hf
      idle_reset := fun h => absurd h hidle
      loaded_fresh := fun h => absurd h hloaded }

theorem Raise.code_ne_noFault (r : Raise) : r.code ≠ .noFault := by
  cases r <;> exact FaultCode.noConfusion

/-- Taking a reachable fault leads to a state that meets the invariant: the record holds the `pc` it stopped at. -/
theorem Inv.of_takeFault {s : State} {r : Raise} (hpc : s.pc.toNat ≤ 256) (hwf : Memory.wf s.mem = true)
    (hr : r.code ≠ .unsupportedOperation) : Inv (takeFault r s) where
  pc_le := hpc
  mem_wf := hwf
  fault_iff := iff_of_true r.code_ne_noFault rfl
  fault_pc _ := rfl
  fault_reachable := hr
  fault_clear h := absurd rfl h
  idle_reset h := nomatch h
  loaded_fresh h := nomatch h

theorem inv_reset : Inv State.reset where
  pc_le := by decide
  mem_wf := rfl
  fault_iff := by decide
  fault_pc h := nomatch h
  fault_reachable := by decide
  fault_clear _ := rfl
  idle_reset _ := rfl
  loaded_fresh h := nomatch h

/-- The image is the whole of memory after a load of the reset machine (R192). -/
theorem read_loadImage_reset {image : List Byte} (h : image.length ≤ 256) (a : Nat) :
    Memory.read (loadImage image State.reset).mem a = image.getD a 0x00#8 := by
  have hread := Memory.read_writeAll Config.loadBase a image (m := []) (by simpa using h) rfl
  refine hread.trans ?_
  by_cases ha : a < image.length <;> simp [ha]

theorem inv_loadImage_reset {image : List Byte} (h1 : 1 ≤ image.length) (h256 : image.length ≤ 256) :
    Inv (loadImage image State.reset) where
  pc_le := by simp [loadImage, State.reset]
  mem_wf := Memory.wf_writeAll image (by simpa using h256) rfl
  fault_iff := by simp [loadImage, State.reset]
  fault_pc h := nomatch h
  fault_reachable := by simp [loadImage, State.reset]
  fault_clear _ := rfl
  idle_reset h := nomatch h
  loaded_fresh _ := ⟨⟨rfl, rfl, rfl, rfl, rfl, rfl⟩, image, h1, h256, read_loadImage_reset h256⟩

theorem Inv.of_step {s t : State} (hinv : Inv s) (hstep : step s = .next t) : Inv t := by
  by_cases hrun : s.status = .running
  · have hcase := step_next_case hrun hstep
    rcases hcase.faults_or_completes hrun with ⟨r, hr, rfl⟩ | ⟨hst, hf⟩
    · exact .of_takeFault hinv.pc_le hinv.mem_wf hr
    · have hclear : s.fault = State.reset.fault := hinv.fault_clear (by simp [hrun])
      exact .of_unfaulted hst (hcase.pc_le hinv.pc_le) (hcase.mem_wf hinv.mem_wf) (hf.trans hclear)
  · rwa [step_still hrun hstep]

theorem Inv.of_command {s : State} (hinv : Inv s) (c : Command) : Inv (command c s).state := by
  rcases command_state_cases c s with ⟨-, h⟩ | h | ⟨image, hidle, h1, h256, h⟩ | ⟨hloaded, h⟩ <;> rw [h]
  · exact inv_reset
  · exact hinv
  · rw [hinv.idle_reset hidle]
    exact inv_loadImage_reset h1 h256
  · exact .of_unfaulted (.inl rfl) hinv.pc_le hinv.mem_wf (hinv.fault_clear (by simp [hloaded]))

theorem Reachable.inv {s : State} (h : Reachable s) : Inv s := by
  induction h with
  | reset => exact inv_reset
  | step _ hstep ih => exact ih.of_step hstep
  | command c _ ih => exact ih.of_command c

/-! ### The traces: every check and every effect is the same under any traces -/

/-- The state with these traces in place of its own. -/
def State.traced (s : State) (o : List Byte) (d : List Diag) : State := { s with out := o, diag := d }

/-- A rule, given as its result under each pair of traces, that emits nothing: it raises one fault whatever the traces
are, or answers one state with the traces it began with. -/
def Silent (x : List Byte → List Diag → Except Raise State) : Prop :=
  (∃ e, ∀ o d, x o d = .error e) ∨ ∃ u : State, ∀ o d, x o d = .ok (u.traced o d)

/-- A rule, given as its result under each pair of traces, that raises one fault whatever the traces are, or answers one
state with the same items, at most one, appended to the traces it began with. -/
def Emits (x : List Byte → List Diag → Except Raise State) : Prop :=
  (∃ e, ∀ o d, x o d = .error e) ∨
  ∃ (u : State) (o' : List Byte) (d' : List Diag), o'.length + d'.length ≤ 1 ∧
    ∀ o d, x o d = .ok (u.traced (o ++ o') (d ++ d'))

/-- A step, given as its outcome under each pair of traces, that answers one state with the same items, at most one,
appended to the traces it began with. -/
def StepEmits (f : List Byte → List Diag → StepOutcome) : Prop :=
  ∃ (u : State) (o' : List Byte) (d' : List Diag), o'.length + d'.length ≤ 1 ∧
    ∀ o d, f o d = .next (u.traced (o ++ o') (d ++ d'))

theorem StepEmits.silent (u : State) : StepEmits fun o d => .next (u.traced o d) :=
  ⟨u, [], [], Nat.zero_le _, fun o d => by rw [List.append_nil, List.append_nil]⟩

theorem Emits.silent (u : State) : Emits fun o d => .ok (u.traced o d) :=
  .inr ⟨u, [], [], Nat.zero_le _, fun o d => by rw [List.append_nil, List.append_nil]⟩

theorem Emits.prn (u : State) (v : Byte) : Emits fun o d => .ok (u.traced (o ++ [v]) d) :=
  .inr ⟨u, [v], [], Nat.le_refl _, fun o d => by rw [List.append_nil]⟩

/-- A check whose result does not depend on the traces comes before a rule without changing what it emits. -/
theorem Emits.check {α : Type} (x : Except Raise α) {k : α → List Byte → List Diag → Except Raise State}
    (hk : ∀ a, Emits (k a)) : Emits fun o d => x >>= fun a => k a o d := by
  cases x with
  | error e => exact .inl ⟨e, fun _ _ => rfl⟩
  | ok a => exact hk a

theorem Emits.after_silent {x : List Byte → List Diag → Except Raise State} {k : State → Except Raise State}
    (hx : Silent x) (hk : ∀ u : State, Emits fun o d => k (u.traced o d)) : Emits fun o d => x o d >>= k := by
  rcases hx with ⟨e, he⟩ | ⟨u, hu⟩
  · exact .inl ⟨e, fun o d => by simp only [he, error_bind]⟩
  · simpa only [hu, ok_bind] using hk u

/-- The end of an execute rule: a fault emits nothing (R169). -/
theorem StepEmits.complete (s : State) {x : List Byte → List Diag → Except Raise State} (hx : Emits x) :
    StepEmits fun o d => complete (s.traced o d) (x o d) := by
  rcases hx with ⟨e, he⟩ | ⟨u, o', d', hlen, hu⟩
  · have hfault : StepEmits fun o d => .next (takeFault e (s.traced o d)) := .silent (takeFault e s)
    simpa only [he, complete_error] using hfault
  · exact ⟨u, o', d', hlen, fun o d => by simp only [hu, complete_ok]⟩

theorem memWrite_silent (a : Nat) (v : Byte) (s : State) : Silent fun o d => memWrite a v (s.traced o d) := by
  by_cases ha : a < 256
  · exact .inr ⟨{ s with mem := Memory.write s.mem a v }, fun _ _ => memWrite_ok ha⟩
  · exact .inl ⟨.outOfBounds a, fun _ _ => if_neg ha⟩

theorem incrementSp_silent (s : State) : Silent fun o d => incrementSp (s.traced o d) := by
  by_cases hsp : s.sp = 0xFF#8
  · exact .inl ⟨_, fun _ _ => incrementSp_error hsp⟩
  · exact .inr ⟨s.setSp (s.sp + 1#8), fun _ _ => incrementSp_ok hsp⟩

theorem exec_emits (i : Instr) (s : State) : StepEmits fun o d => exec i (s.traced o d) := by
  cases i with
  | hlt => exact .silent { s with status := .halted }
  | ldi r imm =>
    exact .complete s (.check (needByte 1 s) fun _ => .check (needByte 2 s) fun _ => .check (regIdx r) fun i =>
      .silent ((s.setReg i imm).advance 3))
  | prn r =>
    exact .complete s (.check (needByte 1 s) fun _ => .check (regIdx r) fun i => .prn (s.advance 2) (s.reg i))
  | mul a b =>
    exact .complete s (.check (needByte 1 s) fun _ => .check (needByte 2 s) fun _ => .check (regIdx a) fun i =>
      .check (regIdx b) fun j => .check (aluApply aluOpMul (s.reg i) (s.reg j)) fun y =>
        .silent ((s.setReg i y).advance 3))
  | push r =>
    exact .complete s (.check (needByte 1 s) fun _ => .check (regIdx r) fun i => .check (pushCheck s) fun _ =>
      .after_silent (memWrite_silent (s.setSp (s.sp - 1#8)).sp.toNat ((s.setSp (s.sp - 1#8)).reg i)
        (s.setSp (s.sp - 1#8))) fun u => .silent (u.advance 2))
  | pop r =>
    exact .complete s (.check (needByte 1 s) fun _ => .check (regIdx r) fun i => .check (popCheck s) fun _ =>
      .check (memRead s.sp.toNat s) fun v =>
        .after_silent (incrementSp_silent (s.setReg i v)) fun u => .silent (u.advance 2))

theorem decodeAndRun_emits (s : State) : StepEmits fun o d => decodeAndRun (s.traced o d) := by
  have hsame (o : List Byte) (d : List Diag) : (s.traced o d).latch = s.latch := rfl
  simp only [decodeAndRun, hsame]
  cases decode s.latch.ir s.latch.opa s.latch.opb with
  | known i => exact exec_emits i s
  | unknown op =>
    exact ⟨s.advance 1, [], [⟨s.pc, op⟩], Nat.le_refl _, fun o d => by rw [List.append_nil]; rfl⟩

theorem step_of_not_running {s : State} (h : s.status ≠ .running) : step s = .next s := by
  cases hs : s.status with
  | running => exact absurd hs h
  | _ => simp only [step, cycle, hs, stillStep]

theorem step_emits (s : State) : StepEmits fun o d => step (s.traced o d) := by
  by_cases hrun : s.status = .running
  · rcases Nat.lt_or_ge s.pc.toNat 256 with hpc | hpc
    · have hstep (o : List Byte) (d : List Diag) : step (s.traced o d) = decodeAndRun (s.latched.traced o d) :=
        ((step_running (s := s.traced o d) hrun).resolve_left fun h => Nat.not_lt.2 h.1 hpc).2
      simpa only [hstep] using decodeAndRun_emits s.latched
    · have hstep (o : List Byte) (d : List Diag) :
          step (s.traced o d) = .next ((takeFault (.outOfBounds s.pc.toNat) s.latched).traced o d) :=
        ((step_running (s := s.traced o d) hrun).resolve_right fun h => Nat.not_lt.2 hpc h.1).2
      simpa only [hstep] using StepEmits.silent _
  · have hstep (o : List Byte) (d : List Diag) : step (s.traced o d) = .next (s.traced o d) :=
      step_of_not_running hrun
    simpa only [hstep] using StepEmits.silent s

/-! ### The obligations -/

/-- Settles O41: a step outside Running answers the same state; a Running step faults or completes, and both kinds of
state meet the invariant. -/
theorem everyStepKeepsTheInvariant : Obligations.EveryStepKeepsTheInvariant :=
  fun _ _ hinv hstep => hinv.of_step hstep

/-- Settles O34: by the two ends of a Running step, and by what a command can do. -/
theorem theFaultRecordIsWrittenOnce : Obligations.TheFaultRecordIsWrittenOnce := by
  constructor
  · intro s t hstep hne
    by_cases hrun : s.status = .running
    · rcases (step_next_case hrun hstep).faults_or_completes hrun with ⟨r, -, rfl⟩ | ⟨-, hf⟩
      · exact ⟨hrun, rfl⟩
      · exact absurd hf hne
    · rw [step_still hrun hstep] at hne
      exact absurd rfl hne
  · intro s c hc
    rcases command_state_cases c s with ⟨h, -⟩ | h | ⟨image, -, -, -, h⟩ | ⟨-, h⟩
    · exact absurd h hc
    · rw [h]
    · rw [h, loadImage]
    · rw [h]

/-- Settles O35: PUSH's one store is the only write, and SP is not 0 where it is made. -/
theorem onlyPushWritesMemory : Obligations.OnlyPushWritesMemory := by
  intro s t hrun _ hstep a hne
  rcases (step_next_case hrun hstep).mem_eq_or_push with hm | ⟨hpc, hk, hsp, v, hm⟩
  · exact absurd (by rw [hm]) hne
  · have ha : a = (s.sp - 1#8).toNat := by
      by_contra ha
      exact hne (by rw [hm, Memory.read_write_ne _ v ha])
    exact ⟨hpc, hk, by rw [ha, sp_pred_toNat_succ hsp]⟩

/-- Settles O36: a register keeps its value in every case of a step but the four that name it. -/
theorem eachInstructionWritesItsOwnRegisters : Obligations.EachInstructionWritesItsOwnRegisters :=
  fun _ _ hrun _ hstep j hne => ((step_next_case hrun hstep).reg_eq_or_own j).resolve_left hne

/-- Settles O37: the step from `s` is the step under its own traces. -/
theorem tracesGrowAndSteerNothing : Obligations.TracesGrowAndSteerNothing := by
  intro s t o d hstep
  obtain ⟨u, o', d', hlen, hu⟩ := step_emits s
  have ht : t = u.traced (s.out ++ o') (s.diag ++ d') := Host.Outcome.next.inj (hstep.symm.trans (hu s.out s.diag))
  subst ht
  exact ⟨o', d', hlen, rfl, rfl, hu o d⟩

/-- Settles O42: the reset state, the same state, the loaded state and the started state all meet the invariant. -/
theorem everyCommandKeepsTheInvariant : Obligations.EveryCommandKeepsTheInvariant :=
  fun c _ hinv => hinv.of_command c

/-- Settles O43: the invariant holds of every reachable state, and R26 is read off from it. -/
theorem reachableStatesMeetR26 : Obligations.ReachableStatesMeetR26 := by
  intro s hs
  have hinv := hs.inv
  refine ⟨hinv.pc_le, hinv.mem_wf, not_iff_not.1 (by simpa using hinv.fault_iff), fun hidle => ?_, fun hloaded => ?_⟩
  · rw [hinv.idle_reset hidle]
    exact ⟨fun _ => rfl, rfl, rfl⟩
  · obtain ⟨⟨hregs, hpc, -⟩, himage⟩ := hinv.loaded_fresh hloaded
    exact ⟨himage, hregs, hpc⟩

/-- Settles O1: by evaluating the reset state, field by field. -/
theorem resetLeavesTheTableOfR25 : Obligations.ResetLeavesTheTableOfR25 :=
  ⟨Memory.read_nil, by decide, rfl, rfl, rfl, rfl, rfl, rfl, rfl, rfl⟩

/-- Settles O6: both code functions are evaluated at each of their five values. -/
theorem stateAndFaultCodesAreNumbered : Obligations.StateAndFaultCodesAreNumbered := ⟨rfl, rfl⟩

/-- Settles O38: a Running step begins by filling the latches, and the check before it reads only `pc` and memory. -/
theorem noStepReadsAnEarlierLatch : Obligations.NoStepReadsAnEarlierLatch := by
  intro s l hrun
  have hrefill : runningStep { s with latch := l } = runningStep s := rfl
  simpa only [step, cycle, hrun] using hrefill

/-- Settles O40: the reset state is Idle, with no fault recorded and memory empty. -/
theorem reachableInvariantAtReset : Obligations.ReachableInvariantAtReset := inv_reset

end Sys2Proof.Machine

/-! Proofs of the memory family: the instruction a step finds encoded at `pc`, and the fetch of a byte PUSH stored. -/

namespace Sys2Proof

/-- Decoding an opcode byte and the two bytes after it gives the instruction whose encoding they begin with: bytes past
its length may be any (R52, R58). -/
theorem decode_of_encode {i : Instr} {ir opa opb : Byte} (hir : ir = (encode i).getD 0 0x00#8)
    (hopa : 1 < i.len → opa = (encode i).getD 1 0x00#8) (hopb : 2 < i.len → opb = (encode i).getD 2 0x00#8) :
    decode ir opa opb = .known i := by
  subst hir
  cases i with
  | hlt => rfl
  | ldi r imm | mul a b =>
    rw [hopa (show 1 < 3 by decide), hopb (show 2 < 3 by decide)]
    rfl
  | prn r | push r | pop r =>
    rw [hopa (show 1 < 2 by decide)]
    rfl

theorem Instr.len_pos (i : Instr) : 0 < i.len := Nat.lt_add_right _ Nat.one_pos

end Sys2Proof

namespace Sys2Proof.Machine

/-! ### The step of an instruction in memory -/

section
variable {s t : State}

theorem latched_ir (h : s.pc.toNat < 256) : (fetchLatch s).ir = byteAt s 0 := fetchByte_of_lt h

/-- When the latched bytes decode to an instruction, the step is its execution from the latched state (R73, R76). -/
theorem step_of_decode_latch {i : Instr} (hrun : s.status = .running) (hpc : s.pc.toNat < 256)
    (hdec : decode (fetchLatch s).ir (fetchLatch s).opa (fetchLatch s).opb = .known i) :
    step s = exec i s.latched := by
  rcases step_running hrun with ⟨hend, -⟩ | ⟨-, hstep⟩
  · exact absurd hpc (Nat.not_lt.2 hend)
  · rw [hstep, decodeAndRun, State.latched_latch, hdec]

/-- An instruction whose encoding lies in memory from `pc` up is what the latched bytes decode to (R33, R72). -/
theorem decode_latch_of_encode {i : Instr} (hlen : s.pc.toNat + i.len ≤ 256)
    (hbytes : ∀ k, k < i.len → byteAt s k = (encode i).getD k 0x00#8) :
    decode (fetchLatch s).ir (fetchLatch s).opa (fetchLatch s).opb = .known i := by
  have hpos := i.len_pos
  refine decode_of_encode ?_ (fun h1 => ?_) fun h2 => ?_
  · rw [latched_ir (by omega), hbytes 0 hpos]
  · rw [latched_opa (by omega), hbytes 1 h1]
  · rw [latched_opb (by omega), hbytes 2 h2]

/-! ### The byte PUSH stores -/

/-- A PUSH that does not fault names a register, finds SP above 0 and has its whole effect (R121). -/
theorem exec_push_completes {r : Byte} (hexec : exec (.push r) s = .next t) (hok : t.status ≠ .faulted) :
    ∃ i : RegIndex, s.pc.toNat + 1 < 256 ∧ r.toNat = i.val ∧ s.sp ≠ 0x00#8 ∧ t = (pushed s i).advance 2 := by
  have hpush : execPush r s = .next t := hexec
  rcases execPush_cases s r with ⟨-, h⟩ | ⟨-, -, h⟩ | ⟨-, -, -, h⟩ | ⟨i, hpc, hr, hsp, h⟩ <;>
    cases hpush.symm.trans h
  · exact absurd rfl hok
  · exact absurd rfl hok
  · exact absurd rfl hok
  · exact ⟨i, hpc, hr, hsp, rfl⟩

/-- The byte at the new SP is the register's value before PUSH, when the register is not SP itself (R124). -/
theorem read_pushed_sp {i : RegIndex} (hwf : Memory.wf s.mem = true) (hi : i ≠ 7) :
    Memory.read (pushed s i).mem (s.sp - 1#8).toNat = s.reg i := by
  rw [pushed, Memory.read_write_self _ _ hwf, State.reg_setSp, if_neg hi]

end

/-! ### The obligations -/

/-- Settles O15: the latched bytes decode to the instruction encoded at `pc`, and the step executes what they decode
to. -/
theorem stepRunsTheEncodedInstruction : Obligations.StepRunsTheEncodedInstruction := by
  intro s i hrun hlen hbytes
  have hpc : s.pc.toNat < 256 := by
    have hpos := i.len_pos
    omega
  exact step_of_decode_latch hrun hpc (decode_latch_of_encode hlen hbytes)

/-- Settles O39: the store address and the next fetch address are both one below the old SP, which is inside memory. -/
theorem aStoreIsSeenByTheNextFetch : Obligations.AStoreIsSeenByTheNextFetch := by
  intro s t i hwf hi hexec hok hadj
  obtain ⟨j, -, hj, hsp, rfl⟩ := exec_push_completes hexec hok
  have hji : j = i := by
    have hmod : i.val % 2 ^ 8 = j.val := by rwa [BitVec.toNat_ofNat] at hj
    exact Fin.ext (by omega)
  subst hji
  have haddr : ((pushed s j).advance 2).pc.toNat = (s.sp - 1#8).toNat := by
    have hpred := sp_pred_toNat_succ hsp
    omega
  calc (fetchLatch ((pushed s j).advance 2)).ir
      = Memory.read (pushed s j).mem (s.sp - 1#8).toNat := by
        rw [latched_ir (by rw [haddr]; exact BitVec.isLt _), byteAt, Nat.add_zero, haddr, State.advance_mem]
    _ = s.reg j := read_pushed_sp hwf hi

end Sys2Proof.Machine

/-! Proofs of the encoding family: the opcode map, the decoder against the encoder, and the register operand bytes an
execute rule accepts. -/

namespace Sys2Proof

/-! ### Decoding undoes encoding, and reads nothing else -/

/-- The bytes the decoder read an instruction from are its encoding: the opcode byte and the operand bytes its format
uses, no more (R52, R55). -/
theorem encode_of_decode {ir a b : Byte} {i : Instr} (h : decode ir a b = .known i) :
    encode i = ir :: [a, b].take i.kind.nOps := by
  rw [decode_eq] at h
  split_ifs at h with hir hir hir hir hir hir <;> cases h
  all_goals
    rw [hir]
    rfl

theorem Kind.nOps_le_two (k : Kind) : k.nOps ≤ 2 := by
  cases k <;> decide

/-- The operand bytes the latches hold are those of the list, when the list is long enough for them. -/
theorem take_getD_eq_take {xs : List Byte} {n : Nat} (hn : n ≤ 2) (hlen : n ≤ xs.length) :
    [xs.getD 0 0#8, xs.getD 1 0#8].take n = xs.take n := by
  match n, xs with
  | 0, _ => rfl
  | 1, _ :: _ => rfl
  | 2, _ :: _ :: _ => rfl

/-- Decoding a list succeeds exactly when its first bytes decode to an instruction whose operand bytes it holds, and
leaves what comes after them (R73, R75). -/
theorem decodeBytes_cons_eq_ok_iff {ir : Byte} {xs rest : List Byte} {i : Instr} :
    decodeBytes (ir :: xs) = .ok (i, rest) ↔
      decode ir (xs.getD 0 0#8) (xs.getD 1 0#8) = .known i ∧ i.kind.nOps ≤ xs.length ∧ xs.drop i.kind.nOps = rest := by
  rw [decodeBytes]
  cases decode ir (xs.getD 0 0#8) (xs.getD 1 0#8) with
  | unknown op => simp
  | known j =>
    by_cases hj : j.kind.nOps ≤ xs.length
    · simp only [hj, if_true, Except.ok.injEq, Prod.mk.injEq, Decoded.known.injEq]
      exact ⟨fun ⟨hi, hrest⟩ => hi ▸ ⟨rfl, hj, hrest⟩, fun ⟨hi, _, hrest⟩ => hi ▸ ⟨rfl, hi ▸ hrest⟩⟩
    · simp only [hj, if_false, Decoded.known.injEq, reduceCtorEq, false_iff]
      exact fun ⟨hi, hlen, _⟩ => hj (hi ▸ hlen)

theorem decodeBytes_encode_append (i : Instr) (rest : List Byte) : decodeBytes (encode i ++ rest) = .ok (i, rest) := by
  cases i <;> exact decodeBytes_cons_eq_ok_iff.2 ⟨rfl, Nat.le_add_left _ _, rfl⟩

theorem eq_encode_append_of_decodeBytes {bytes rest : List Byte} {i : Instr} (h : decodeBytes bytes = .ok (i, rest)) :
    bytes = encode i ++ rest := by
  cases bytes with
  | nil => exact nomatch h
  | cons ir xs =>
    obtain ⟨hdec, hlen, rfl⟩ := decodeBytes_cons_eq_ok_iff.1 h
    rw [encode_of_decode hdec, take_getD_eq_take i.kind.nOps_le_two hlen, List.cons_append, List.take_append_drop]

/-! ### Register operand bytes -/

theorem regOperandOk_of_lt {b : Byte} (h : b.toNat < 8) : regOperandOk b = true := decide_eq_true h

theorem regOperandOk_of_ge {b : Byte} (h : 8 ≤ b.toNat) : regOperandOk b = false := decide_eq_false (Nat.not_lt.2 h)

end Sys2Proof

namespace Sys2Proof.Machine

/-! ### When an execute rule raises InvalidRegister -/

section
variable {s : State}

theorem halted_ne_stopped {code : FaultCode} (info : PcWord) : { s with status := .halted } ≠ stopped s code info :=
  fun h => Status.noConfusion (congrArg State.status h)

theorem takeFault_ne_stopped {r : Raise} {code : FaultCode} (hr : r.code ≠ code) (info : PcWord) :
    takeFault r s ≠ stopped s code info :=
  fun h => hr (congrArg (fun u => u.fault.code) h)

/-- An instruction that completes has moved `pc`, so it has not stopped the machine where it began (R77, R169). -/
theorem advance_ne_stopped (t : State) {n : Nat} (hlen : s.pc.toNat + n ≤ 256) (hpos : 0 < n) (hpc : t.pc = s.pc)
    {code : FaultCode} (info : PcWord) : t.advance n ≠ stopped s code info := by
  intro h
  have hmoved : (s.pc.toNat + n) % 2 ^ 9 = s.pc.toNat := by
    simpa [hpc, stopped] using congrArg (fun u => u.pc.toNat) h
  omega

/-- An instruction whose bytes lie in memory raises InvalidRegister when a register operand byte is 8 or more (R162);
otherwise it completes, or raises another fault. -/
theorem exec_in_memory_cases {i : Instr} (hlen : s.pc.toNat + i.len ≤ 256) :
    (i.wellFormed = false ∧ ∃ b, exec i s = .next (takeFault (.invalidRegister b) s)) ∨
    (i.wellFormed = true ∧ ∃ t, exec i s = .next t ∧ ∀ info, t ≠ stopped s .invalidRegister info) := by
  have hstack (sp : Byte) : (Raise.stackFault sp).code ≠ .invalidRegister := FaultCode.noConfusion
  cases i with
  | hlt => exact .inr ⟨rfl, _, execHlt_eq s, halted_ne_stopped⟩
  | ldi r imm =>
    have hfit : s.pc.toNat + 3 ≤ 256 := hlen
    rcases execLdi_cases s r imm with ⟨hout, -⟩ | ⟨-, hout, -⟩ | ⟨-, hr, hx⟩ | ⟨j, -, hr, hx⟩
    · omega
    · omega
    · exact .inl ⟨regOperandOk_of_ge hr, r, hx⟩
    · exact .inr ⟨regOperandOk_of_lt (hr.trans_lt j.isLt), _, hx,
        advance_ne_stopped (s.setReg j imm) hfit (by decide) rfl⟩
  | prn r =>
    have hfit : s.pc.toNat + 2 ≤ 256 := hlen
    rcases execPrn_cases s r with ⟨hout, -⟩ | ⟨-, hr, hx⟩ | ⟨j, -, hr, hx⟩
    · omega
    · exact .inl ⟨regOperandOk_of_ge hr, r, hx⟩
    · exact .inr ⟨regOperandOk_of_lt (hr.trans_lt j.isLt), _, hx,
        advance_ne_stopped (s.emitPrn (s.reg j)) hfit (by decide) rfl⟩
  | mul a b =>
    have hfit : s.pc.toNat + 3 ≤ 256 := hlen
    have hwf : (Instr.mul a b).wellFormed = (regOperandOk a && regOperandOk b) := rfl
    rcases execMul_cases s a b with ⟨hout, -⟩ | ⟨-, hout, -⟩ | ⟨-, ha, hx⟩ | ⟨-, -, hb, hx⟩ | ⟨j, k, -, ha, hb, hx⟩
    · omega
    · omega
    · exact .inl ⟨by rw [hwf, regOperandOk_of_ge ha, Bool.false_and], a, hx⟩
    · exact .inl ⟨by rw [hwf, regOperandOk_of_ge hb, Bool.and_false], b, hx⟩
    · refine .inr ⟨?_, _, hx, advance_ne_stopped (s.setReg j _) hfit (by decide) rfl⟩
      rw [hwf, regOperandOk_of_lt (ha.trans_lt j.isLt), regOperandOk_of_lt (hb.trans_lt k.isLt), Bool.true_and]
  | push r =>
    have hfit : s.pc.toNat + 2 ≤ 256 := hlen
    rcases execPush_cases s r with ⟨hout, -⟩ | ⟨-, hr, hx⟩ | ⟨-, hr, -, hx⟩ | ⟨j, -, hr, -, hx⟩
    · omega
    · exact .inl ⟨regOperandOk_of_ge hr, r, hx⟩
    · exact .inr ⟨regOperandOk_of_lt hr, _, hx, takeFault_ne_stopped (hstack _)⟩
    · exact .inr ⟨regOperandOk_of_lt (hr.trans_lt j.isLt), _, hx,
        advance_ne_stopped (pushed s j) hfit (by decide) rfl⟩
  | pop r =>
    have hfit : s.pc.toNat + 2 ≤ 256 := hlen
    rcases execPop_cases s r with
      ⟨hout, -⟩ | ⟨-, hr, hx⟩ | ⟨-, hr, -, hx⟩ | ⟨-, hr, -, -, hx⟩ | ⟨j, -, hr, -, -, hx⟩
    · omega
    · exact .inl ⟨regOperandOk_of_ge hr, r, hx⟩
    · exact .inr ⟨regOperandOk_of_lt hr, _, hx, takeFault_ne_stopped (hstack _)⟩
    · exact .inr ⟨regOperandOk_of_lt (hr.trans_lt (by decide)), _, hx, takeFault_ne_stopped (hstack _)⟩
    · exact .inr ⟨regOperandOk_of_lt (hr.trans_lt j.isLt), _, hx,
        advance_ne_stopped (popped s j) hfit (by decide) rfl⟩

end

/-! ### The obligations -/

/-- Settles O10: the bytes a decode read are the encoding of what it gave, and an encoding decodes whatever follows. -/
theorem decodeAndEncodeAgree : Obligations.DecodeAndEncodeAgree :=
  fun _ rest i => ⟨eq_encode_append_of_decodeBytes, fun h => h ▸ decodeBytes_encode_append i rest⟩

/-- Settles O30: by the ways an instruction in memory can end; the datum is the operand byte. -/
theorem illFormedInstructionsRaiseInvalidRegister : Obligations.IllFormedInstructionsRaiseInvalidRegister := by
  intro i s hlen
  rcases exec_in_memory_cases hlen with ⟨hwf, b, hx⟩ | ⟨hwf, t, hx, hne⟩
  · exact iff_of_true hwf ⟨b.setWidth 9, hx⟩
  · refine iff_of_false (Bool.not_eq_false _ ▸ hwf) ?_
    rintro ⟨info, hstop⟩
    exact hne info (Host.Outcome.next.inj (hx.symm.trans hstop))

/-- Settles O8: the six rows of the opcode map are evaluated; a byte that is none of their opcodes fails every
comparison the map stands for. -/
theorem opcodeMapIsComplete : Obligations.OpcodeMapIsComplete := by
  refine ⟨fun _ _ => rfl, fun _ _ => rfl, fun _ _ => rfl, fun _ _ => rfl, fun _ _ => rfl, fun _ _ => rfl, rfl, ?_⟩
  intro ir a b hir
  simp only [List.mem_cons, List.not_mem_nil, or_false, not_or] at hir
  obtain ⟨hhlt, hldi, hprn, hmul, hpush, hpop⟩ := hir
  simp only [decode_eq, hhlt, hldi, hprn, hmul, hpush, hpop, if_false]

/-- Settles O9: the six words are encodings with the bytes after them, and the two rejected lists are evaluated. -/
theorem writtenOutWordsDecode : Obligations.WrittenOutWordsDecode :=
  ⟨decodeBytes_encode_append .hlt [], decodeBytes_encode_append (.ldi 0x00#8 0x08#8) [],
    decodeBytes_encode_append (.prn 0x02#8) [0x01#8], decodeBytes_encode_append (.mul 0x00#8 0x01#8) [],
    decodeBytes_encode_append (.push 0x01#8) [], decodeBytes_encode_append (.pop 0x02#8) [], rfl, rfl⟩

end Sys2Proof.Machine

/-! Proofs of the instruction-cycle family: what a step latches, the three ways a Running step can end, the length of a
run, and the instruction placed where the next step fetches. -/

namespace Sys2Proof

theorem Kind.len_pos (k : Kind) : 0 < k.len := Nat.lt_add_right _ Nat.one_pos

/-- A word the table decoder reads is three bytes that decode to the instruction, as they would from the latches
(R73). -/
theorem decode_tableBytes {nbits w : Nat} {i : Instr} (h : decodeTableWord nbits w = some i) :
    decode (tableByte nbits w 0) (tableByte nbits w 1) (tableByte nbits w 2) = .known i := by
  unfold decodeTableWord at h
  split at h
  · next j rest hj =>
    cases h
    exact (decodeBytes_cons_eq_ok_iff.1 hj).1
  · exact nomatch h

end Sys2Proof

namespace Sys2Proof.Machine

/-! ### The fetch -/

section
variable {s t : State}

theorem step_of_pc_256 (hrun : s.status = .running) (hpc : s.pc = 256#9) :
    step s = .next (takeFault (.outOfBounds 256) s.latched) := by
  have h256 : s.pc.toNat = 256 := by rw [hpc]; rfl
  rcases step_running hrun with ⟨-, hstep⟩ | ⟨hlt, -⟩
  · rwa [h256] at hstep
  · omega

/-- Every case of a step leaves the latches as the fetch filled them: no rule writes them and a fault keeps them. -/
theorem StepCase.latch_eq (h : StepCase s t) : t.latch = fetchLatch s := by
  cases h <;> rfl

/-! ### Where a step ends -/

theorem State.advance_pc_toNat {n : Nat} (h : s.pc.toNat + n ≤ 256) : (s.advance n).pc.toNat = s.pc.toNat + n := by
  rw [State.advance_pc, BitVec.toNat_ofNat, Nat.mod_eq_of_lt (by omega)]

/-- The step at an unknown opcode is the skip: nothing can fault before it (R74). -/
theorem step_of_unknown (hrun : s.status = .running) (hpc : s.pc.toNat < 256) (hk : kindAt s = .unknown) :
    step s = .next (unknownStep (byteAt s 0) s.latched) := by
  rcases step_running hrun with ⟨hend, -⟩ | ⟨-, hstep⟩
  · exact absurd hpc (Nat.not_lt.2 hend)
  · rw [hstep, decodeAndRun_eq hpc, hk]

/-- How a step of a Running machine ends: it faults in place, and then not at HLT; it halts in place at HLT; or it
goes on past the whole instruction, which lay in memory (R77, R81). -/
inductive StepEnd (s t : State) : Prop where
  | faulted : t.status = .faulted → t.pc = s.pc → ¬ (s.pc.toNat ≤ 255 ∧ kindAt s = .hlt) → StepEnd s t
  | halted : t.status = .halted → t.pc = s.pc → s.pc.toNat ≤ 255 → kindAt s = .hlt → StepEnd s t
  | running : t.status = .running → kindAt s ≠ .hlt → s.pc.toNat + (kindAt s).len ≤ 256 →
      t.pc.toNat = s.pc.toNat + (kindAt s).len → StepEnd s t

/-- A fault of an instruction other than HLT ends the step in place (R169). -/
theorem StepEnd.of_takeFault (r : Raise) (hk : kindAt s ≠ .hlt) : StepEnd s (takeFault r s.latched) :=
  .faulted rfl rfl fun h => hk h.2

/-- An instruction that completes advances `pc` by its length, from wherever its other effects leave it (R77). -/
theorem StepEnd.of_advance {u : State} {k : Kind} {n : Nat} (hk : kindAt s = k) (hne : k ≠ .hlt) (hn : k.len = n)
    (hlen : s.pc.toNat + n ≤ 256) (hst : u.status = .running) (hpc : u.pc = s.pc) : StepEnd s (u.advance n) := by
  subst hk hn
  exact .running hst hne hlen (by rw [State.advance_pc_toNat (by rwa [hpc]), hpc])

theorem StepCase.stepEnd (h : StepCase s t) (hrun : s.status = .running) : StepEnd s t := by
  cases h with
  | offEnd hpc => exact .faulted rfl rfl fun h => absurd h.1 (by omega)
  | hlt hpc hk => exact .halted rfl rfl hpc hk
  | noOperandA _ hreg | badA _ hreg _ => exact .of_takeFault _ hreg.2
  | noOperandB _ hk => exact .of_takeFault _ (by rcases hk with hk | hk <;> simp [hk])
  | badB _ hk | pushFault _ hk | popFault _ hk | popSpFault _ hk => exact .of_takeFault _ (by simp [hk])
  | skip hpc hk => exact .of_advance hk (by decide) rfl (by omega) hrun rfl
  | ldi _ hpc hk | mul _ _ hpc hk => exact .of_advance hk (by decide) rfl (by omega) hrun rfl
  | prn _ hpc hk | push _ hpc hk | pop _ hpc hk => exact .of_advance hk (by decide) rfl (by omega) hrun rfl

/-- A machine that runs on has moved `pc` up by at least one, so it runs on fewer than 257 times (R82). -/
theorem run_ends {n : Nat} (hrun : s.status = .running) (hpc : s.pc.toNat ≤ 256) (hn : 256 < s.pc.toNat + n) :
    ∃ t, Host.Core.run core n s = .next t ∧ Terminal t := by
  induction n generalizing s with
  | zero => omega
  | succ n ih =>
    obtain ⟨t, hstep, hcase⟩ := step_case hrun
    rw [run_succ hstep]
    cases hcase.stepEnd hrun with
    | faulted hst => exact ⟨t, run_terminal (.inr hst), .inr hst⟩
    | halted hst => exact ⟨t, run_terminal (.inl hst), .inl hst⟩
    | running hst _ hlen hmove =>
      have hpos := (kindAt s).len_pos
      exact ih hst (by omega) (by omega)

end

/-! ### Placing an instruction -/

/-- Where the bytes fit in memory, placing them is storing them. -/
theorem placeBytes_eq_writeAll {m : List Host.Cell} {a : Nat} {vs : List Byte} (h : a + vs.length ≤ 256) :
    placeBytes m a vs = Memory.writeAll m a vs := by
  induction vs generalizing m a with
  | nil => rfl
  | cons v vs ih =>
    rw [List.length_cons] at h
    have ha : a < Config.memSize := show a < 256 by omega
    rw [placeBytes, if_pos ha, Memory.writeAll, ih (by omega)]

theorem byteAt_withFetchWord {s : State} {k : Nat} (nbits w : Nat) (hwf : Memory.wf s.mem = true)
    (hpc : s.pc.toNat + 3 ≤ 256) (hk : k < 3) :
    byteAt (s.withFetchWord nbits w) k = (tableBytes nbits w).getD k 0x00#8 := by
  have hread := Memory.read_writeAll s.pc.toNat (s.pc.toNat + k) (tableBytes nbits w) hpc hwf
  rw [← placeBytes_eq_writeAll hpc, Nat.add_sub_cancel_left,
    if_pos ⟨Nat.le_add_right _ _, Nat.add_lt_add_left hk _⟩] at hread
  exact hread

/-- A placed word is what the next fetch latches (R72). -/
theorem decode_latch_withFetchWord {s : State} {nbits w : Nat} {i : Instr} (hwf : Memory.wf s.mem = true)
    (hpc : s.pc.toNat + 3 ≤ 256) (hi : decodeTableWord nbits w = some i) :
    decode (fetchLatch (s.withFetchWord nbits w)).ir (fetchLatch (s.withFetchWord nbits w)).opa
      (fetchLatch (s.withFetchWord nbits w)).opb = .known i := by
  have hp : (s.withFetchWord nbits w).pc.toNat + 3 ≤ 256 := hpc
  have hbyte (k : Nat) (hk : k < 3) := byteAt_withFetchWord nbits w hwf hpc hk
  rw [latched_ir (by omega), latched_opa (by omega), latched_opb (by omega), hbyte 0 (by decide), hbyte 1 (by decide),
    hbyte 2 (by decide)]
  exact decode_tableBytes hi

/-! ### The obligations -/

/-- Settles O13: whatever case the step is, its latches are the fetch's, and those are known byte by byte. -/
theorem fetchLatchesThreeBytes : Obligations.FetchLatchesThreeBytes := by
  intro s t hrun hpc hstep
  rw [(step_next_case hrun hstep).latch_eq, fetchLatch_eq hpc]
  exact ⟨rfl, rfl, rfl, rfl, rfl⟩

/-- Settles O16: the step is the skip, whose only effects are the diagnostic and the advance by one. -/
theorem unknownOpcodeIsReportedAndSkipped : Obligations.UnknownOpcodeIsReportedAndSkipped := by
  intro s hrun hpc hk
  have hmove : (unknownStep (byteAt s 0) s.latched).pc.toNat = s.pc.toNat + 1 :=
    State.advance_pc_toNat (s := s.latched.emitDiag s.pc (byteAt s 0)) (Nat.succ_le_succ hpc)
  exact ⟨_, step_of_unknown hrun (Nat.lt_succ_of_le hpc) hk, rfl, hmove, fun _ => rfl, fun _ => rfl, hrun, rfl, rfl⟩

/-- Settles O17: by the three ways the step can end; the length is then read off for each kind. -/
theorem pcMovesByTheInstructionLength : Obligations.PcMovesByTheInstructionLength := by
  intro s t hrun _ hstep
  cases (step_next_case hrun hstep).stepEnd hrun with
  | faulted hst hpc | halted hst hpc => exact ⟨fun h => by simp [hst] at h, fun _ => hpc⟩
  | running hst hne hlen hmove =>
    refine ⟨fun _ => ⟨hmove ▸ hlen, ?_⟩, fun h => absurd hst h⟩
    cases hk : kindAt s with
    | hlt => exact hne hk
    | _ => rw [hk] at hmove; exact hmove

/-- Settles O18: of the three ways the step can end, only HLT's is Halted. -/
theorem hltIsTheOnlyWayToHalted : Obligations.HltIsTheOnlyWayToHalted := by
  intro s hrun
  obtain ⟨t, hstep, hcase⟩ := step_case hrun
  refine ⟨t, hstep, ?_⟩
  cases hcase.stepEnd hrun with
  | faulted hst _ hnot => exact ⟨.inr (.inr hst), iff_of_false (by simp [hst]) hnot⟩
  | halted hst _ hpc hk => exact ⟨.inr (.inl hst), iff_of_true hst ⟨hpc, hk⟩⟩
  | running hst hne => exact ⟨.inl hst, iff_of_false (by simp [hst]) fun h => hne h.2⟩

/-- Settles O19: `pc` cannot pass 256, and every step that does not end the run raises it. -/
theorem everyRunEndsWithin257Steps : Obligations.EveryRunEndsWithin257Steps :=
  fun _ hrun hpc => run_ends hrun hpc (Nat.lt_add_left _ (by decide))

/-- Settles O48: the reset machine's `pc` is 0 and its memory is empty, so the placed word is latched whole. -/
theorem aPlacedInstructionRunsNext : Obligations.APlacedInstructionRunsNext :=
  fun _ _ _ hi =>
    step_of_decode_latch rfl (show 0 < 256 by decide) (decode_latch_withFetchWord (s := State.reset) rfl (by decide) hi)

/-- Settles O11: in each of the four other states the core stands still. -/
theorem nothingMovesOutsideRunning : Obligations.NothingMovesOutsideRunning :=
  fun _ h => step_of_not_running h

/-- Settles O12: at 256 the opcode fetch faults with that address; at 0 to 255 it is a read inside memory. -/
theorem opcodeFetchPastTheEndFaults : Obligations.OpcodeFetchPastTheEndFaults :=
  fun _ => ⟨fun hrun hpc => ⟨_, step_of_pc_256 hrun hpc, rfl, rfl⟩, fun hpc => memRead_ok (Nat.lt_succ_of_le hpc)⟩

/-- Settles O14: the bytes in the statement are the ones the fetch latches. -/
theorem stepRunsTheDecodedInstruction : Obligations.StepRunsTheDecodedInstruction := by
  intro s i hrun hpc hdec
  refine step_of_decode_latch hrun (Nat.lt_succ_of_le hpc) ?_
  rwa [fetchLatch_eq hpc]

end Sys2Proof.Machine

namespace Sys2Proof.Machine

/-! ### HLT -/

/-- A machine that is not Running stands still: whatever its step answers is the machine itself (R70). -/
theorem eq_of_step_next_of_not_running {s t : State} (h : s.status ≠ .running) (hstep : step s = .next t) : t = s :=
  Host.Outcome.next.inj (hstep.symm.trans (step_of_not_running h))

/-- Settles O20: HLT writes only the lifecycle state, and a Halted machine stands still. -/
theorem hltHaltsInPlace : Obligations.HltHaltsInPlace := by
  refine ⟨rfl, fun s => ⟨_, execHlt_eq s, rfl, rfl, fun _ => rfl, fun _ => rfl, ⟨rfl, rfl⟩, rfl, rfl, fun u hstep => ?_⟩⟩
  exact eq_of_step_next_of_not_running Status.noConfusion hstep

end Sys2Proof.Machine

/-! Proofs of the data family: what LDI and PRN do with their operand byte in memory or past its end, and the decimal
numeral of a PRN value. -/

namespace Sys2Proof.Machine

section
variable {s : State} {r : Byte} {i : RegIndex}

/-! ### LDI -/

theorem exec_ldi_completes (imm : Byte) (hpc : s.pc.toNat ≤ 253) (hr : r.toNat = i.val) :
    exec (.ldi r imm) s = .next ((s.setReg i imm).advance 3) := by
  rcases execLdi_cases s r imm with ⟨hend, -⟩ | ⟨-, hend, -⟩ | ⟨-, hbad, -⟩ | ⟨j, -, hj, hx⟩
  · omega
  · omega
  · omega
  · obtain rfl : j = i := Fin.ext (hj.symm.trans hr)
    exact hx

/-- The first operand byte past the end is the one at 256, operand a or operand b (R75). -/
theorem exec_ldi_outOfBounds (imm : Byte) (hpc : s.pc.toNat = 254 ∨ s.pc.toNat = 255) :
    exec (.ldi r imm) s = .next (stopped s .outOfBounds 256#9) := by
  rcases execLdi_cases s r imm with ⟨hend, hx⟩ | ⟨hlt, hend, hx⟩ | ⟨hlt, -⟩ | ⟨-, hlt, -⟩
  · rwa [show s.pc.toNat + 1 = 256 by omega] at hx
  · rwa [show s.pc.toNat + 2 = 256 by omega] at hx
  · omega
  · omega

theorem exec_ldi_invalidRegister (imm : Byte) (hpc : s.pc.toNat ≤ 253) (hr : 8 ≤ r.toNat) :
    exec (.ldi r imm) s = .next (stopped s .invalidRegister (r.setWidth 9)) := by
  rcases execLdi_cases s r imm with ⟨hend, -⟩ | ⟨-, hend, -⟩ | ⟨-, -, hx⟩ | ⟨j, -, hj, -⟩
  · omega
  · omega
  · exact hx
  · omega

/-! ### PRN -/

theorem exec_prn_completes (hpc : s.pc.toNat ≤ 254) (hr : r.toNat = i.val) :
    exec (.prn r) s = .next ((s.emitPrn (s.reg i)).advance 2) := by
  rcases execPrn_cases s r with ⟨hend, -⟩ | ⟨-, hbad, -⟩ | ⟨j, -, hj, hx⟩
  · omega
  · omega
  · obtain rfl : j = i := Fin.ext (hj.symm.trans hr)
    exact hx

theorem exec_prn_outOfBounds (hpc : s.pc.toNat = 255) :
    exec (.prn r) s = .next (stopped s .outOfBounds 256#9) := by
  rcases execPrn_cases s r with ⟨-, hx⟩ | ⟨hlt, -⟩ | ⟨-, hlt, -⟩
  · rwa [hpc] at hx
  · omega
  · omega

theorem exec_prn_invalidRegister (hpc : s.pc.toNat ≤ 254) (hr : 8 ≤ r.toNat) :
    exec (.prn r) s = .next (stopped s .invalidRegister (r.setWidth 9)) := by
  rcases execPrn_cases s r with ⟨hend, -⟩ | ⟨-, -, hx⟩ | ⟨j, -, hj, -⟩
  · omega
  · exact hx
  · omega

end

/-! ### The numeral -/

/-- A positive number's digits do not begin with 0: they begin with those of its quotient by the base, down to a
quotient that is one digit and not 0. -/
theorem head?_toDigits_ne_zero {b n : Nat} (hb : 1 < b) (hn : 0 < n) : (Nat.toDigits b n).head? ≠ some '0' := by
  induction n using Nat.strongRecOn with
  | ind n ih =>
    rcases Nat.lt_or_ge n b with hlt | hle
    · simpa [Nat.toDigits_of_lt_base hlt] using hn.ne'
    · rw [Nat.toDigits_of_base_le hb hle, List.head?_append_of_ne_nil _ Nat.toDigits_ne_nil]
      exact ih (n / b) (Nat.div_lt_self hn hb) (Nat.div_pos hle (Nat.zero_lt_of_lt hb))

/-! ### The obligations -/

/-- Settles O21: where both operand bytes lie in memory the register write and the advance are the whole effect; each
fault stops the machine in place. -/
theorem ldiLoadsTheImmediate : Obligations.LdiLoadsTheImmediate := by
  intro r imm s
  refine ⟨rfl, fun i hpc hr => ?_, exec_ldi_outOfBounds imm, exec_ldi_invalidRegister imm⟩
  have hmove : ((s.setReg i imm).advance 3).pc.toNat = s.pc.toNat + 3 :=
    State.advance_pc_toNat (s := s.setReg i imm) (Nat.add_le_add_right hpc 3)
  exact ⟨_, exec_ldi_completes imm hpc hr, State.reg_setReg_self s i imm, fun j hj => State.reg_setReg_ne s i j imm hj,
    hmove, fun _ => rfl, ⟨rfl, rfl, rfl⟩, rfl, rfl⟩

/-- Settles O22: where the operand byte lies in memory the item on `OUT` and the advance are the whole effect; each
fault stops the machine in place, before anything is emitted. -/
theorem prnEmitsTheRegister : Obligations.PrnEmitsTheRegister := by
  intro r s
  refine ⟨rfl, fun i hpc hr => ?_, exec_prn_outOfBounds, exec_prn_invalidRegister⟩
  have hmove : ((s.emitPrn (s.reg i)).advance 2).pc.toNat = s.pc.toNat + 2 :=
    State.advance_pc_toNat (s := s.emitPrn (s.reg i)) (Nat.add_le_add_right hpc 2)
  exact ⟨_, exec_prn_completes hpc hr, rfl, rfl, hmove, fun _ => rfl, fun _ => rfl, rfl, rfl, rfl⟩

/-- Settles O7: the digits and their value are the library's facts about the decimal digits of a number; a leading 0
is left to 0 itself, whose numeral is one character long. -/
theorem prnNumeralIsThePlainDecimalOfTheByte : Obligations.PrnNumeralIsThePlainDecimalOfTheByte := by
  intro v
  have hdigits : ∀ c ∈ prnNumeral v, c.isDigit = true :=
    fun _ hc => Nat.isDigit_of_mem_toDigits (by decide) (Nat.le_refl 10) hc
  have hvalue : Nat.ofDigitChars 10 (prnNumeral v) 0 = v.toNat := Nat.ofDigitChars_ten_toDigits
  refine ⟨List.all_eq_true.2 hdigits, Nat.ofDigitChars_eq_foldl ▸ hvalue, ?_, Nat.toDigits_ne_nil⟩
  rcases Nat.eq_zero_or_pos v.toNat with hzero | hpos
  · exact .inl (by rw [prnNumeral, hzero, Nat.toDigits_zero, List.length_singleton])
  · exact .inr (head?_toDigits_ne_zero (by decide) hpos)

end Sys2Proof.Machine

/-! Proofs of the ALU family: what MUL does with its operand bytes in memory or past its end. -/

namespace Sys2Proof.Machine

/-- The ALU's product is the product modulo 256 (R106). -/
theorem aluMul_toNat (x y : Byte) : (aluMul x y).toNat = x.toNat * y.toNat % 256 := BitVec.toNat_ofNat ..

section
variable {s : State} {a b : Byte} {i j : RegIndex}

/-! ### MUL -/

/-- Both factors are read before the write, so `i` and `j` may be one register (R109). -/
theorem exec_mul_completes (hpc : s.pc.toNat ≤ 253) (ha : a.toNat = i.val) (hb : b.toNat = j.val) :
    exec (.mul a b) s = .next ((s.setReg i (aluMul (s.reg i) (s.reg j))).advance 3) := by
  rcases execMul_cases s a b with
    ⟨hend, -⟩ | ⟨-, hend, -⟩ | ⟨-, hbad, -⟩ | ⟨-, -, hbad, -⟩ | ⟨i', j', -, hi, hj, hx⟩
  · omega
  · omega
  · omega
  · omega
  · obtain rfl : i' = i := Fin.ext (hi.symm.trans ha)
    obtain rfl : j' = j := Fin.ext (hj.symm.trans hb)
    exact hx

/-- The first operand byte past the end is the one at 256, operand a or operand b (R75). -/
theorem exec_mul_outOfBounds (hpc : s.pc.toNat = 254 ∨ s.pc.toNat = 255) :
    exec (.mul a b) s = .next (stopped s .outOfBounds 256#9) := by
  rcases execMul_cases s a b with
    ⟨hend, hx⟩ | ⟨hlt, hend, hx⟩ | ⟨hlt, -⟩ | ⟨hlt, -⟩ | ⟨-, -, hlt, -⟩
  · rwa [show s.pc.toNat + 1 = 256 by omega] at hx
  · rwa [show s.pc.toNat + 2 = 256 by omega] at hx
  · omega
  · omega
  · omega

theorem exec_mul_invalidRegister_a (hpc : s.pc.toNat ≤ 253) (ha : 8 ≤ a.toNat) :
    exec (.mul a b) s = .next (stopped s .invalidRegister (a.setWidth 9)) := by
  rcases execMul_cases s a b with
    ⟨hend, -⟩ | ⟨-, hend, -⟩ | ⟨-, -, hx⟩ | ⟨-, hok, -⟩ | ⟨_, _, -, hok, -⟩
  · omega
  · omega
  · exact hx
  · omega
  · omega

/-- Operand b is looked at only once operand a has named a register (R162). -/
theorem exec_mul_invalidRegister_b (hpc : s.pc.toNat ≤ 253) (ha : a.toNat ≤ 7) (hb : 8 ≤ b.toNat) :
    exec (.mul a b) s = .next (stopped s .invalidRegister (b.setWidth 9)) := by
  rcases execMul_cases s a b with
    ⟨hend, -⟩ | ⟨-, hend, -⟩ | ⟨-, hbad, -⟩ | ⟨-, -, -, hx⟩ | ⟨_, _, -, -, hok, -⟩
  · omega
  · omega
  · omega
  · exact hx
  · omega

end

/-! ### The obligation -/

/-- Settles O23: where both operand bytes lie in memory and name registers the write of the product and the advance are
the whole effect; each fault stops the machine in place, operand a's before operand b's. -/
theorem mulMultipliesModulo256 : Obligations.MulMultipliesModulo256 := by
  intro a b s
  refine ⟨rfl, fun i j hpc ha hb => ?_, exec_mul_outOfBounds, exec_mul_invalidRegister_a, exec_mul_invalidRegister_b⟩
  have hwrite : (s.setReg i (aluMul (s.reg i) (s.reg j))).reg i = aluMul (s.reg i) (s.reg j) :=
    State.reg_setReg_self s i _
  have hproduct := (congrArg BitVec.toNat hwrite).trans (aluMul_toNat (s.reg i) (s.reg j))
  have hmove : ((s.setReg i (aluMul (s.reg i) (s.reg j))).advance 3).pc.toNat = s.pc.toNat + 3 :=
    State.advance_pc_toNat (s := s.setReg i _) (Nat.add_le_add_right hpc 3)
  exact ⟨_, exec_mul_completes hpc ha hb, hproduct, fun k hk => State.reg_setReg_ne s i k _ hk, hmove, fun _ => rfl,
    ⟨rfl, rfl, rfl⟩, rfl, rfl⟩

end Sys2Proof.Machine

/-! Proofs of the stack family: what PUSH and POP do to SP, to the registers and to memory, where each of them faults,
and the items that runs of pushes and pops leave and take. -/

namespace Sys2Proof.Machine

section
variable {s : State} {r : Byte} {i j : RegIndex}

/-! ### PUSH -/

theorem pushed_sp (s : State) (i : RegIndex) : (pushed s i).sp = s.sp - 1#8 := State.sp_setSp s _

/-- SP above 0 goes down by one: the subtraction does not wrap (R121). -/
theorem pushed_sp_toNat_succ (i : RegIndex) (hsp : s.sp ≠ 0x00#8) : (pushed s i).sp.toNat + 1 = s.sp.toNat := by
  rw [pushed_sp, sp_pred_toNat_succ hsp]

theorem pushed_advance_pc_toNat (i : RegIndex) (hpc : s.pc.toNat ≤ 254) :
    ((pushed s i).advance 2).pc.toNat = s.pc.toNat + 2 :=
  State.advance_pc_toNat (s := pushed s i) (Nat.add_le_add_right hpc 2)

theorem pushed_reg_ne (i : RegIndex) (h7 : j ≠ 7) : (pushed s i).reg j = s.reg j := State.reg_setReg_ne s _ _ _ h7

theorem exec_push_of_sp_ne_zero (hpc : s.pc.toNat ≤ 254) (hr : r.toNat = i.val) (hsp : s.sp ≠ 0x00#8) :
    exec (.push r) s = .next ((pushed s i).advance 2) := by
  rcases execPush_cases s r with ⟨hend, -⟩ | ⟨-, hbad, -⟩ | ⟨-, -, hzero, -⟩ | ⟨j, -, hj, -, hx⟩
  · omega
  · omega
  · exact absurd hzero hsp
  · obtain rfl : j = i := Fin.ext (hj.symm.trans hr)
    exact hx

theorem exec_push_outOfBounds (hpc : s.pc.toNat = 255) :
    exec (.push r) s = .next (stopped s .outOfBounds 256#9) := by
  rcases execPush_cases s r with ⟨-, hx⟩ | ⟨hlt, -⟩ | ⟨hlt, -⟩ | ⟨-, hlt, -⟩
  · rwa [hpc] at hx
  · omega
  · omega
  · omega

theorem exec_push_invalidRegister (hpc : s.pc.toNat ≤ 254) (hr : 8 ≤ r.toNat) :
    exec (.push r) s = .next (stopped s .invalidRegister (r.setWidth 9)) := by
  rcases execPush_cases s r with ⟨hend, -⟩ | ⟨-, -, hx⟩ | ⟨-, hok, -⟩ | ⟨_, -, hok, -⟩
  · omega
  · exact hx
  · omega
  · omega

theorem exec_push_stackFault (hpc : s.pc.toNat ≤ 254) (hr : r.toNat ≤ 7) (hsp : s.sp = 0x00#8) :
    exec (.push r) s = .next (stopped s .stackFault 0#9) := by
  rcases execPush_cases s r with ⟨hend, -⟩ | ⟨-, hbad, -⟩ | ⟨-, -, -, hx⟩ | ⟨_, -, -, hne, -⟩
  · omega
  · omega
  · exact hx
  · exact absurd hsp hne

/-! ### POP -/

theorem toNat_add_one {v : Byte} (h : v ≠ 0xFF#8) : (v + 1#8).toNat = v.toNat + 1 := by
  bv_omega

theorem popped_sp_toNat_of_ne (h7 : i ≠ 7) (hsp : s.sp.toNat < 0xF4) : (popped s i).sp.toNat = s.sp.toNat + 1 := by
  rw [popped, State.sp_setSp, State.sp_setReg, if_neg h7, toNat_add_one (by bv_omega)]

/-- POP of SP itself: the increment is of the popped byte (R125). -/
theorem popped_sp_toNat_of_seven (hpop : Memory.read s.mem s.sp.toNat ≠ 0xFF#8) :
    (popped s 7).sp.toNat = (Memory.read s.mem s.sp.toNat).toNat + 1 := by
  rw [popped, State.sp_setSp, State.sp_setReg, if_pos rfl, toNat_add_one hpop]

theorem popped_advance_pc_toNat (i : RegIndex) (hpc : s.pc.toNat ≤ 254) :
    ((popped s i).advance 2).pc.toNat = s.pc.toNat + 2 :=
  State.advance_pc_toNat (s := popped s i) (Nat.add_le_add_right hpc 2)

theorem popped_reg_self (h7 : i ≠ 7) : (popped s i).reg i = Memory.read s.mem s.sp.toNat := by
  rw [popped, State.reg_setSp, if_neg h7, State.reg_setReg_self]

theorem exec_pop_completes (hpc : s.pc.toNat ≤ 254) (hr : r.toNat = i.val) (hsp : s.sp.toNat < 0xF4)
    (h7 : i = 7 → Memory.read s.mem s.sp.toNat ≠ 0xFF#8) : exec (.pop r) s = .next ((popped s i).advance 2) := by
  rcases execPop_cases s r with
    ⟨hend, -⟩ | ⟨-, hbad, -⟩ | ⟨-, -, hhigh, -⟩ | ⟨-, hseven, -, hpop, -⟩ | ⟨j, -, hj, -, -, hx⟩
  · omega
  · omega
  · omega
  · exact absurd hpop (h7 (Fin.ext (hr.symm.trans hseven)))
  · obtain rfl : j = i := Fin.ext (hj.symm.trans hr)
    exact hx

theorem exec_pop_outOfBounds (hpc : s.pc.toNat = 255) : exec (.pop r) s = .next (stopped s .outOfBounds 256#9) := by
  rcases execPop_cases s r with ⟨-, hx⟩ | ⟨hlt, -⟩ | ⟨hlt, -⟩ | ⟨hlt, -⟩ | ⟨-, hlt, -⟩
  · rwa [hpc] at hx
  · omega
  · omega
  · omega
  · omega

theorem exec_pop_invalidRegister (hpc : s.pc.toNat ≤ 254) (hr : 8 ≤ r.toNat) :
    exec (.pop r) s = .next (stopped s .invalidRegister (r.setWidth 9)) := by
  rcases execPop_cases s r with ⟨hend, -⟩ | ⟨-, -, hx⟩ | ⟨-, hok, -⟩ | ⟨-, hok, -⟩ | ⟨_, -, hok, -⟩
  · omega
  · exact hx
  · omega
  · omega
  · omega

/-- At 0xF4 and above SP cannot go up, whatever the register (R123). -/
theorem exec_pop_stackFault (hpc : s.pc.toNat ≤ 254) (hr : r.toNat ≤ 7) (hsp : 0xF4 ≤ s.sp.toNat) :
    exec (.pop r) s = .next (stopped s .stackFault (s.sp.setWidth 9)) := by
  rcases execPop_cases s r with
    ⟨hend, -⟩ | ⟨-, hbad, -⟩ | ⟨-, -, -, hx⟩ | ⟨-, -, hlow, -⟩ | ⟨_, -, -, hlow, -⟩
  · omega
  · omega
  · exact hx
  · omega
  · omega

/-- A popped 255 in SP cannot go up (R125). -/
theorem exec_pop_seven_stackFault (hpc : s.pc.toNat ≤ 254) (hr : r.toNat = 7) (hsp : s.sp.toNat < 0xF4)
    (hpop : Memory.read s.mem s.sp.toNat = 0xFF#8) : exec (.pop r) s = .next (stopped s .stackFault 255#9) := by
  rcases execPop_cases s r with
    ⟨hend, -⟩ | ⟨-, hbad, -⟩ | ⟨-, -, hhigh, -⟩ | ⟨-, -, -, -, hx⟩ | ⟨j, -, hj, -, hne, -⟩
  · omega
  · omega
  · omega
  · exact hx
  · exact absurd hpop (hne (Fin.ext (hj.symm.trans hr)))

/-! ### Runs of pushes and of pops -/

/-- The `n` items from the top of the stack down: the bytes at SP and the `n` - 1 addresses above it (R120). -/
def stackItems (s : State) (n : Nat) : List Byte := (List.range' s.sp.toNat n).map (Memory.read s.mem)

theorem stackItems_succ {t : State} (hsp : t.sp.toNat = s.sp.toNat + 1) (hmem : SameMem s t) (n : Nat) :
    stackItems s (n + 1) = Memory.read s.mem s.sp.toNat :: stackItems t n := by
  have hread : Memory.read t.mem = Memory.read s.mem := funext hmem
  rw [stackItems, stackItems, hread, hsp, List.range'_succ, List.map_cons]

/-- PUSH puts the register's value on top of the items there: its store is below all of them. -/
theorem stackItems_pushed (hwf : Memory.wf s.mem = true) (hsp : s.sp ≠ 0x00#8) (h7 : i ≠ 7) (n : Nat) :
    stackItems (pushed s i) (n + 1) = s.reg i :: stackItems s n := by
  have hpred := sp_pred_toNat_succ hsp
  have hbelow : ∀ a ∈ List.range' s.sp.toNat n, Memory.read (pushed s i).mem a = Memory.read s.mem a := by
    intro a ha
    have hle := (List.mem_range'_1.1 ha).1
    exact Memory.read_write_ne s.mem _ (by omega)
  rw [stackItems, pushed_sp, List.range'_succ, List.map_cons, read_pushed_sp hwf h7, hpred, List.map_congr_left hbelow,
    stackItems]

theorem execAll_cons_of_next {i : Instr} {is : List Instr} {t : State} (h : exec i s = .next t) :
    execAll (i :: is) s = execAll is t := by
  rw [execAll, h]

theorem toNat_ofNat_regIndex (i : RegIndex) : (BitVec.ofNat 8 i.val).toNat = i.val := by
  rw [BitVec.toNat_ofNat]
  omega

/-- Pushes with room below SP complete, and lay the registers' values on the stack, the last one on top. -/
theorem execAll_push {ps : List RegIndex} (hwf : Memory.wf s.mem = true) (h7 : 7 ∉ ps)
    (hsp : ps.length ≤ s.sp.toNat) (hpc : s.pc.toNat + 2 * ps.length ≤ 256) :
    ∃ t, execAll (ps.map fun i => .push (BitVec.ofNat 8 i.val)) s = .next t ∧
      t.sp.toNat + ps.length = s.sp.toNat ∧ t.pc.toNat = s.pc.toNat + 2 * ps.length ∧
      ∀ n, stackItems t (ps.length + n) = (ps.map s.reg).reverse ++ stackItems s n := by
  induction ps generalizing s with
  | nil => exact ⟨s, rfl, rfl, rfl, fun n => by simp⟩
  | cons p ps ih =>
    obtain ⟨hp, hps⟩ := List.ne_and_not_mem_of_not_mem_cons h7
    rw [List.length_cons] at hsp hpc
    have hroom : s.pc.toNat ≤ 254 := by omega
    have hne : s.sp ≠ 0x00#8 := fun h => by simp [h] at hsp
    have hsp' : ((pushed s p).advance 2).sp.toNat + 1 = s.sp.toNat := pushed_sp_toNat_succ p hne
    have hpc' := pushed_advance_pc_toNat p hroom
    have hregs : ps.map ((pushed s p).advance 2).reg = ps.map s.reg :=
      List.map_congr_left fun _ hj => pushed_reg_ne p (ne_of_mem_of_not_mem hj hps)
    obtain ⟨t, hrun, htsp, htpc, hitems⟩ := ih (s := (pushed s p).advance 2)
      (Memory.wf_write _ (BitVec.isLt _) hwf) hps (by omega) (by omega)
    have hexec := exec_push_of_sp_ne_zero hroom (toNat_ofNat_regIndex p) hne
    refine ⟨t, (execAll_cons_of_next hexec).trans hrun, ?_, ?_, fun n => ?_⟩
    · rw [List.length_cons]
      omega
    · rw [List.length_cons]
      omega
    · calc stackItems t (ps.length + 1 + n)
          = stackItems t (ps.length + (n + 1)) := by rw [Nat.add_assoc, Nat.add_comm 1]
        _ = (ps.map s.reg).reverse ++ stackItems (pushed s p) (n + 1) := by rw [hitems, hregs]; rfl
        _ = (ps.map s.reg).reverse ++ s.reg p :: stackItems s n := by
            rw [stackItems_pushed hwf hne (Ne.symm hp)]
        _ = ((p :: ps).map s.reg).reverse ++ stackItems s n := by simp

/-- Pops up to 0xF4 complete, and give registers that differ from each other the items from the top down. -/
theorem execAll_pop {qs : List RegIndex} (h7 : 7 ∉ qs) (hsp : s.sp.toNat + qs.length ≤ 0xF4)
    (hpc : s.pc.toNat + 2 * qs.length ≤ 256) :
    ∃ u, execAll (qs.map fun i => .pop (BitVec.ofNat 8 i.val)) s = .next u ∧
      u.sp.toNat = s.sp.toNat + qs.length ∧ (∀ j, j ∉ qs → j ≠ 7 → u.reg j = s.reg j) ∧
      (qs.Nodup → qs.map u.reg = stackItems s qs.length) := by
  induction qs generalizing s with
  | nil => exact ⟨s, rfl, rfl, fun _ _ _ => rfl, fun _ => rfl⟩
  | cons q qs ih =>
    obtain ⟨hq, hqs⟩ := List.ne_and_not_mem_of_not_mem_cons h7
    rw [List.length_cons] at hsp hpc
    have hroom : s.pc.toNat ≤ 254 := by omega
    have hlow : s.sp.toNat < 0xF4 := by omega
    have hsp' : ((popped s q).advance 2).sp.toNat = s.sp.toNat + 1 := popped_sp_toNat_of_ne (Ne.symm hq) hlow
    have hpc' := popped_advance_pc_toNat q hroom
    obtain ⟨u, hrun, husp, hframe, hitems⟩ := ih (s := (popped s q).advance 2) hqs (by omega) (by omega)
    have hexec := exec_pop_completes hroom (toNat_ofNat_regIndex q) hlow fun h => absurd h (Ne.symm hq)
    refine ⟨u, (execAll_cons_of_next hexec).trans hrun, ?_, fun j hj hj7 => ?_, fun hnodup => ?_⟩
    · rw [List.length_cons]
      omega
    · obtain ⟨hjq, hjqs⟩ := List.ne_and_not_mem_of_not_mem_cons hj
      exact (hframe j hjqs hj7).trans (popped_reg_ne hjq hj7)
    · obtain ⟨hnot, hrest⟩ := List.nodup_cons.1 hnodup
      have htop : u.reg q = Memory.read s.mem s.sp.toNat :=
        (hframe q hnot (Ne.symm hq)).trans (popped_reg_self (Ne.symm hq))
      rw [List.map_cons, htop, hitems hrest, List.length_cons, stackItems_succ hsp' fun _ => rfl]

end

/-! ### The obligations -/

/-- Settles O24: where the operand byte lies in memory and names a register and SP is not 0, the decrement, the store
below the old SP and the advance are the whole effect; each fault stops the machine in place. -/
theorem pushStoresBelowTheStackPointer : Obligations.PushStoresBelowTheStackPointer := by
  intro r s
  refine ⟨rfl, fun i hwf hpc hr hsp => ?_, exec_push_outOfBounds, exec_push_invalidRegister, exec_push_stackFault⟩
  have haddr : s.sp.toNat - 1 = (s.sp - 1#8).toNat := Nat.sub_eq_of_eq_add (sp_pred_toNat_succ hsp).symm
  rw [haddr]
  refine ⟨_, exec_push_of_sp_ne_zero hpc hr hsp, congrArg BitVec.toNat (pushed_sp s i), fun _ => pushed_reg_ne i, ?_,
    fun a ha => Memory.read_write_ne s.mem _ ha, pushed_advance_pc_toNat i hpc, ⟨rfl, rfl, rfl⟩, rfl, rfl⟩
  calc Memory.read (pushed s i).mem (s.sp - 1#8).toNat
      = (s.setSp (s.sp - 1#8)).reg i := Memory.read_write_self _ _ hwf
    _ = if i = 7 then s.sp - 1#8 else s.reg i := State.reg_setSp s i _

/-- Settles O25: where POP completes, the register write, the increment and the advance are the whole effect, and the
increment of a byte below 255 does not wrap; each fault stops the machine in place. -/
theorem popLoadsFromTheStackPointer : Obligations.PopLoadsFromTheStackPointer := by
  intro r s
  refine ⟨rfl, fun i hpc hr h7 hsp => ?_, fun hpc hr hsp hpop => ?_, exec_pop_outOfBounds, exec_pop_invalidRegister,
    exec_pop_stackFault, exec_pop_seven_stackFault⟩
  · exact ⟨_, exec_pop_completes hpc hr hsp fun h => absurd h h7, popped_reg_self h7, popped_sp_toNat_of_ne h7 hsp,
      fun _ => popped_reg_ne, popped_advance_pc_toNat i hpc, fun _ => rfl, ⟨rfl, rfl, rfl⟩, rfl, rfl⟩
  · exact ⟨_, exec_pop_completes (i := 7) hpc hr hsp fun _ => hpop, popped_sp_toNat_of_seven hpop,
      fun _ hj => popped_reg_ne hj hj, popped_advance_pc_toNat 7 hpc, fun _ => rfl, ⟨rfl, rfl, rfl⟩, rfl, rfl⟩

/-- Settles O27: the pushes lay the values on the stack in reverse, SP comes back up by as much as it went down, and the
pops take the items from the top down. -/
theorem pushesThenPopsReverseTheItems : Obligations.PushesThenPopsReverseTheItems := by
  intro s ps qs hwf hps hqs hlen hsp hbound hpc
  obtain ⟨t, hpush, htsp, htpc, hpushed⟩ := execAll_push hwf hps hsp (by omega)
  obtain ⟨u, hpop, husp, -, hpopped⟩ := execAll_pop (s := t) hqs (by omega) (by omega)
  refine ⟨t, u, hpush, by omega, hpop, BitVec.eq_of_toNat_eq (by omega), fun hnodup => ?_⟩
  calc qs.map u.reg = stackItems t (ps.length + 0) := by rw [hpopped hnodup, hlen, Nat.add_zero]
    _ = (ps.map s.reg).reverse := by rw [hpushed 0, stackItems, List.range'_zero, List.map_nil, List.append_nil]

end Sys2Proof.Machine

/-! Proofs of the family of block interfaces: each unit's outputs in the model's own terms, the unit composition's fault
request and its effect, and the composition against the step. -/

namespace Sys2Proof.Machine

/-! ### The decoder -/

/-- The row of R137's truth table for each kind. -/
def controlOf : Kind → ControlWord
  | .unknown => controlUnknown
  | .hlt => { controlUnknown with known := true, kind := 1#3, halt := true }
  | .ldi =>
    { controlUnknown with
      known := true, kind := 2#3, nOps := 2#2, len := 3#2, aIsReg := true, bIsImm := true, regWe := true }
  | .prn => { controlUnknown with known := true, kind := 3#3, nOps := 1#2, len := 2#2, aIsReg := true, prn := true }
  | .mul =>
    { controlUnknown with
      known := true, kind := 4#3, nOps := 2#2, len := 3#2, aIsReg := true, bIsReg := true, aluEn := true,
      aluOp := aluOpMul, regWe := true }
  | .push =>
    { controlUnknown with
      known := true, kind := 5#3, nOps := 1#2, len := 2#2, aIsReg := true, spDec := true, memWe := true }
  | .pop =>
    { controlUnknown with
      known := true, kind := 6#3, nOps := 1#2, len := 2#2, aIsReg := true, regWe := true, spInc := true,
      memRe := true }

/-- The decoder unit looks its row up by the opcode map's kind (R55, R137). -/
theorem instructionDecoder_eq (ir : Byte) : instructionDecoder ir = controlOf (kindOf ir) := by
  rw [instructionDecoder, kindOf_eq]
  split_ifs <;> rfl

/-! ### The loader's port and the host inputs -/

/-- Writing an image through the loader's port in Idle, from address `a` up, stores it in memory (R142). -/
theorem foldl_loaderPort {s : State} {a : Nat} {image : List Byte} (hidle : s.status = .idle)
    (hfit : a + image.length ≤ 256) :
    (image.zipIdx a).foldl (fun u c => loaderPort true (BitVec.ofNat 8 c.2) c.1 u) s =
      { s with mem := Memory.writeAll s.mem a image } := by
  induction image generalizing s a with
  | nil => rfl
  | cons v vs ih =>
    rw [List.length_cons] at hfit
    have haddr : (BitVec.ofNat 8 a).toNat = a := Nat.mod_eq_of_lt (show a < 256 by omega)
    have hport : loaderPort true (BitVec.ofNat 8 a) v s = { s with mem := Memory.write s.mem a v } := by
      simp [loaderPort, memoryWritePort, hidle, haddr]
    rw [List.zipIdx_cons, List.foldl_cons, hport]
    exact ih (s := { s with mem := Memory.write s.mem a v }) hidle (by omega)

theorem command_load_idle {s : State} {image : List Byte} (hidle : s.status = .idle)
    (himage : imageError image = none) :
    command (.load (.bytes image)) s = { state := loadImage image s, response := .accepted } := by
  simp [command, hostLoad, hidle, loadIdle, himage]

/-! ### The fetch unit and the register file -/

section
variable {s : State}

/-- The fetch unit's outputs are what a step latches (R24, R72, R136). -/
theorem fetchUnit_latch (hpc : s.pc.toNat ≤ 256) :
    FetchLatch.mk (fetchUnit s.pc s.mem).ir (fetchUnit s.pc s.mem).opa (fetchUnit s.pc s.mem).opb
      (fetchUnit s.pc s.mem).opaAvail (fetchUnit s.pc s.mem).opbAvail = fetchLatch s := by
  have h0 : s.pc.toNat < Config.memSize ↔ ¬ s.pc.toNat = 256 := by simp only [Config.memSize]; omega
  have h1 : s.pc.toNat + 1 < Config.memSize ↔ s.pc.toNat ≤ 254 := by simp only [Config.memSize]; omega
  have h2 : s.pc.toNat + 2 < Config.memSize ↔ s.pc.toNat ≤ 253 := by simp only [Config.memSize]; omega
  simp only [fetchUnit, fetchLatch, fetchByte, h0, h1, h2, ite_not]

theorem fetchUnit_opa (hpc : s.pc.toNat ≤ 254) : (fetchUnit s.pc s.mem).opa = byteAt s 1 := if_pos hpc

theorem fetchUnit_opb (hpc : s.pc.toNat ≤ 253) : (fetchUnit s.pc s.mem).opb = byteAt s 2 := if_pos hpc

theorem fetchUnit_ir (hpc : s.pc.toNat ≤ 255) : (fetchUnit s.pc s.mem).ir = byteAt s 0 := if_neg (by omega)

theorem fetchUnit_irOob (hpc : s.pc.toNat ≤ 255) : (fetchUnit s.pc s.mem).irOob = false := decide_eq_false (by omega)

theorem fetchUnit_opaAvail (hpc : s.pc.toNat ≤ 254) : (fetchUnit s.pc s.mem).opaAvail = true := decide_eq_true hpc

theorem fetchUnit_opbAvail (hpc : s.pc.toNat ≤ 253) : (fetchUnit s.pc s.mem).opbAvail = true := decide_eq_true hpc

theorem stepControl_fetchUnit (hpc : s.pc.toNat ≤ 255) :
    stepControl (fetchUnit s.pc s.mem) = controlOf (kindAt s) := by
  simp only [stepControl, fetchUnit_irOob hpc, fetchUnit_ir hpc, instructionDecoder_eq, kindAt, Bool.false_eq_true,
    if_false]

variable {b : Byte} {i : RegIndex} (v d : Byte)

theorem registerRead_fst (x : Vector Byte 8) (b : Byte) : (registerRead x b).1 = decide (b.toNat < 8) := by
  rw [registerRead]
  split_ifs with h <;> simp [h]

theorem registerRead_snd (h : b.toNat = i.val) : (registerRead s.regs b).2 = s.reg i := by
  have hb : b.toNat < 8 := h ▸ i.isLt
  rw [registerRead, dif_pos hb, State.reg]
  simp only [h]

theorem registerFile_general (h : b.toNat = i.val) :
    registerFile ⟨false, true, b, v, false, d, true⟩ s.regs = (s.setReg i v).regs := by
  simp [registerFile, h]

theorem registerFile_sp : registerFile ⟨false, false, b, v, true, d, true⟩ s.regs = (s.setSp d).regs := by
  simp [registerFile]

/-- The general write is applied first and the stack-pointer write second (R138). -/
theorem registerFile_general_sp (h : b.toNat = i.val) :
    registerFile ⟨false, true, b, v, true, d, true⟩ s.regs = ((s.setReg i v).setSp d).regs := by
  simp [registerFile, h]

theorem registerFile_no_write : registerFile ⟨false, false, b, v, false, d, true⟩ s.regs = s.regs := by
  simp [registerFile]

theorem registerFile_no_commit {w : RegisterWrite} (hr : w.reset = false) (hc : w.commit = false) :
    registerFile w s.regs = s.regs := by
  simp [registerFile, hr, hc]

end

/-! ### The composition, with its fault request named -/

/-- The fault the composition of the units raises at `s`, if it raises one (R143). -/
def unitsRequest (s : State) : Option (FaultCode × PcWord) :=
  let f := fetchUnit s.pc s.mem
  let c := stepControl f
  let ra := registerRead s.regs f.opa
  let rb := registerRead s.regs f.opb
  faultRequest s.pc f c ra.1 rb.1 s.sp (Memory.read s.mem s.sp.toNat) (alu c.aluOp ra.2 rb.2).unsupported

/-- The state the composition leads to, from the fetch unit's outputs, the control word and the fault request
(R143). -/
def unitsOutcome (s : State) (f : FetchOut) (c : ControlWord) (req : Option (FaultCode × PcWord)) : State :=
  let ra := registerRead s.regs f.opa
  let rb := registerRead s.regs f.opb
  let pulses := stepPulses s.pc f c ra.2 req.isNone
  let q := sequencerStep ⟨false, false, false, c.len, c.halt, req⟩ ⟨s.pc, s.status, s.fault⟩
  { mem := memoryWritePort (req.isNone && c.memWe) (s.sp - 1#8) (if f.opa = 7#8 then s.sp - 1#8 else ra.2) s.mem
    regs := registerFile
      (stepRegisterWrite f c s.sp (Memory.read s.mem s.sp.toNat) (alu c.aluOp ra.2 rb.2).y req.isNone) s.regs
    pc := q.pc
    status := q.status
    fault := q.fault
    out := s.out ++ pulses.out.toList
    diag := s.diag ++ pulses.diag.toList
    latch := ⟨f.ir, f.opa, f.opb, f.opaAvail, f.opbAvail⟩ }

section
variable {s : State}

theorem unitsStep_eq_outcome :
    unitsStep s = unitsOutcome s (fetchUnit s.pc s.mem) (stepControl (fetchUnit s.pc s.mem)) (unitsRequest s) := rfl

theorem State.advance_eq_add (n : Nat) : s.advance n = { s with pc := s.pc + BitVec.ofNat 9 n } := by
  simp [State.advance, BitVec.ofNat_add]

theorem eq_seven_iff {b : Byte} {i : RegIndex} (h : b.toNat = i.val) : b = 7#8 ↔ i = 7 := by
  rw [← BitVec.toNat_inj, h, Fin.ext_iff]; rfl

section
variable {f : FetchOut} {i j : RegIndex}
    (hf : FetchLatch.mk f.ir f.opa f.opb f.opaAvail f.opbAvail = fetchLatch s)
include hf

/-- A requested fault masks every write and every pulse (R143, R169). -/
theorem unitsOutcome_fault {c : ControlWord} (r : Raise) (hdiag : c.known = true ∨ f.irOob = true) :
    unitsOutcome s f c (some (r.code, r.info)) = takeFault r s.latched := by
  have hpulse : c.known = false → f.irOob = true := fun h => by simpa [h] using hdiag
  simpa [unitsOutcome, hf, memoryWritePort, registerFile_no_commit, stepRegisterWrite, stepPulses, sequencerStep,
    takeFault, State.latched] using hpulse

theorem unitsOutcome_unknown (hir : f.irOob = false) :
    unitsOutcome s f (controlOf .unknown) none = unknownStep f.ir s.latched := by
  simp [unitsOutcome, hf, controlOf, controlUnknown, sequencerStep, stepPulses, stepRegisterWrite, memoryWritePort, hir,
    registerFile_no_write, unknownStep, State.emitDiag, State.latched, State.advance_eq_add]

theorem unitsOutcome_hlt : unitsOutcome s f (controlOf .hlt) none = { s.latched with status := .halted } := by
  simp [unitsOutcome, hf, controlOf, controlUnknown, sequencerStep, stepPulses, stepRegisterWrite, memoryWritePort,
    registerFile_no_write, State.latched]

theorem unitsOutcome_ldi (ha : f.opa.toNat = i.val) :
    unitsOutcome s f (controlOf .ldi) none = (s.latched.setReg i f.opb).advance 3 := by
  simp [unitsOutcome, hf, controlOf, controlUnknown, sequencerStep, stepPulses, stepRegisterWrite, memoryWritePort,
    registerFile_general _ _ ha, State.setReg, State.latched, State.advance_eq_add]

theorem unitsOutcome_prn (ha : f.opa.toNat = i.val) :
    unitsOutcome s f (controlOf .prn) none = (s.latched.emitPrn (s.reg i)).advance 2 := by
  simp [unitsOutcome, hf, controlOf, controlUnknown, sequencerStep, stepPulses, stepRegisterWrite, memoryWritePort,
    registerFile_no_write, registerRead_snd ha, State.emitPrn, State.latched, State.advance_eq_add]

theorem unitsOutcome_mul (ha : f.opa.toNat = i.val) (hb : f.opb.toNat = j.val) :
    unitsOutcome s f (controlOf .mul) none = (s.latched.setReg i (aluMul (s.reg i) (s.reg j))).advance 3 := by
  have halu : (alu aluOpMul (s.reg i) (s.reg j)).y = aluMul (s.reg i) (s.reg j) := rfl
  simp [unitsOutcome, hf, controlOf, controlUnknown, sequencerStep, stepPulses, stepRegisterWrite, memoryWritePort,
    registerRead_snd ha, registerRead_snd hb, halu, registerFile_general _ _ ha, State.setReg, State.latched,
    State.advance_eq_add]

/-- The store's data is the register read after the decrement (R124). -/
theorem unitsOutcome_push (ha : f.opa.toNat = i.val) :
    unitsOutcome s f (controlOf .push) none = (pushed s.latched i).advance 2 := by
  have hdata : (if f.opa = 7#8 then s.sp - 1#8 else (registerRead s.regs f.opa).2) = (s.setSp (s.sp - 1#8)).reg i := by
    simp only [State.reg_setSp, registerRead_snd ha, eq_seven_iff ha]
  have heffect : pushed s.latched i =
      { s.latched with
        mem := Memory.write s.mem (s.sp - 1#8).toNat ((s.setSp (s.sp - 1#8)).reg i)
        regs := (s.setSp (s.sp - 1#8)).regs } := rfl
  rw [heffect]
  simp [unitsOutcome, hf, controlOf, controlUnknown, sequencerStep, stepPulses, stepRegisterWrite, memoryWritePort,
    registerFile_sp, hdata, State.latched, State.advance_eq_add]

/-- The stack pointer's data is the increment of what the general write leaves in it (R125). -/
theorem unitsOutcome_pop (ha : f.opa.toNat = i.val) :
    unitsOutcome s f (controlOf .pop) none = (popped s.latched i).advance 2 := by
  have hdata : (if f.opa = 7#8 then Memory.read s.mem s.sp.toNat + 1#8 else s.sp + 1#8) =
      (s.setReg i (Memory.read s.mem s.sp.toNat)).sp + 1#8 := by
    simp only [State.sp_setReg, eq_seven_iff ha, apply_ite (· + 1#8)]
  have heffect : popped s.latched i =
      { s.latched with
        regs := ((s.setReg i (Memory.read s.mem s.sp.toNat)).setSp
          ((s.setReg i (Memory.read s.mem s.sp.toNat)).sp + 1#8)).regs } := rfl
  rw [heffect]
  simp [unitsOutcome, hf, controlOf, controlUnknown, sequencerStep, stepPulses, stepRegisterWrite, memoryWritePort,
    registerFile_general_sp _ _ ha, hdata, State.latched, State.advance_eq_add]

end

/-! ### The fault request, line by line -/

theorem controlOf_known {k : Kind} (h : k ≠ .unknown) : (controlOf k).known = true := by
  cases k with
  | unknown => exact absurd rfl h
  | _ => rfl

theorem controlOf_of_takesRegister {k : Kind} (h : takesRegister k) :
    (controlOf k).known = true ∧ 1 ≤ (controlOf k).nOps.toNat ∧ (controlOf k).aIsReg = true := by
  obtain ⟨hunknown, hhlt⟩ := h
  cases k with
  | unknown => exact absurd rfl hunknown
  | hlt => exact absurd rfl hhlt
  | _ => decide

theorem controlOf_bIsReg {k : Kind} (h : (controlOf k).bIsReg = true) : k = .mul := by
  cases k with
  | mul => rfl
  | _ => exact Bool.noConfusion h

theorem unitsRequest_of_pc_256 (hpc : s.pc.toNat = 256) : unitsRequest s = some (.outOfBounds, 256#9) :=
  if_pos (decide_eq_true hpc)

theorem unitsRequest_of_pc_255 (hpc : s.pc.toNat = 255) (hreg : takesRegister (kindAt s)) :
    unitsRequest s = some (.outOfBounds, 256#9) := by
  obtain ⟨hknown, hops, -⟩ := controlOf_of_takesRegister hreg
  have hadd : s.pc + 1#9 = 256#9 := by bv_omega
  have havail : (fetchUnit s.pc s.mem).opaAvail = false := decide_eq_false (by omega)
  simp [unitsRequest, faultRequest, fetchUnit_irOob hpc.le, stepControl_fetchUnit hpc.le, hknown, hops, havail, hadd]

theorem unitsRequest_of_pc_254 (hpc : s.pc.toNat = 254) (hk : kindAt s = .ldi ∨ kindAt s = .mul) :
    unitsRequest s = some (.outOfBounds, 256#9) := by
  have hlt : s.pc.toNat ≤ 255 := by omega
  have hcontrol : (controlOf (kindAt s)).known = true ∧ (controlOf (kindAt s)).nOps = 2#2 := by
    rcases hk with hk | hk <;> rw [hk] <;> exact ⟨rfl, rfl⟩
  obtain ⟨hknown, hops⟩ := hcontrol
  have hadd : s.pc + 2#9 = 256#9 := by bv_omega
  have havail : (fetchUnit s.pc s.mem).opbAvail = false := decide_eq_false (by omega)
  simp [unitsRequest, faultRequest, fetchUnit_irOob hlt, stepControl_fetchUnit hlt, hknown, hops,
    fetchUnit_opaAvail hpc.le, havail, hadd]

/-- The lines of the fault request about the stack pointer (R143). -/
def stackRequest (s : State) (c : ControlWord) : Option (FaultCode × PcWord) :=
  if c.spDec ∧ s.sp = 0x00#8 then some (.stackFault, 0#9)
  else if c.spInc ∧ 244 ≤ s.sp.toNat then some (.stackFault, s.sp.setWidth 9)
  else if c.spInc ∧ byteAt s 1 = 7#8 ∧ Memory.read s.mem s.sp.toNat = 0xFF#8 then some (.stackFault, 255#9)
  else none

theorem stackRequest_push :
    stackRequest s (controlOf .push) = if s.sp = 0x00#8 then some (.stackFault, 0#9) else none := by
  simp [stackRequest, controlOf, controlUnknown]

theorem stackRequest_pop :
    stackRequest s (controlOf .pop) =
      if 244 ≤ s.sp.toNat then some (.stackFault, s.sp.setWidth 9)
      else if byteAt s 1 = 7#8 ∧ Memory.read s.mem s.sp.toNat = 0xFF#8 then some (.stackFault, 255#9)
      else none := by
  simp [stackRequest, controlOf, controlUnknown]

/-- The fault request at an instruction that lies in memory: only its registers and the stack pointer can raise a
fault, for the ALU supports every operation an instruction selects (R143, R164). -/
theorem unitsRequest_of_len_le {k : Kind} (hk : kindAt s = k) (hpc : s.pc.toNat + k.len ≤ 256) :
    unitsRequest s =
      if (controlOf k).aIsReg ∧ 8 ≤ (byteAt s 1).toNat then some (.invalidRegister, (byteAt s 1).setWidth 9)
      else if (controlOf k).bIsReg ∧ 8 ≤ (byteAt s 2).toNat then some (.invalidRegister, (byteAt s 2).setWidth 9)
      else stackRequest s (controlOf k) := by
  have hpos := k.len_pos
  have h255 : s.pc.toNat ≤ 255 := by omega
  simp only [unitsRequest, stackRequest, stepControl_fetchUnit h255, faultRequest, fetchUnit_irOob h255,
    registerRead_fst, hk]
  cases k with
  | unknown | hlt => rfl
  | prn | push | pop =>
    have h254 : s.pc.toNat ≤ 254 := Nat.le_of_add_le_add_right (b := 2) hpc
    simp [fetchUnit_opa h254, fetchUnit_opaAvail h254, controlOf, controlUnknown]
  | ldi | mul =>
    have h253 : s.pc.toNat ≤ 253 := Nat.le_of_add_le_add_right (b := 3) hpc
    have h254 : s.pc.toNat ≤ 254 := by omega
    simp [fetchUnit_opa h254, fetchUnit_opaAvail h254, fetchUnit_opb h253, fetchUnit_opbAvail h253, controlOf,
      controlUnknown, alu, aluOpMul, aluOpAdd]

/-- Once the operand bytes name registers, only the stack pointer can raise a fault. -/
theorem unitsRequest_of_registers {k : Kind} (hk : kindAt s = k) (hpc : s.pc.toNat + k.len ≤ 256)
    (ha : (byteAt s 1).toNat < 8) (hb : k = .mul → (byteAt s 2).toNat < 8) :
    unitsRequest s = stackRequest s (controlOf k) := by
  rw [unitsRequest_of_len_le hk hpc, if_neg (by omega), if_neg]
  rintro ⟨hisReg, hbad⟩
  exact absurd (hb (controlOf_bIsReg hisReg)) (Nat.not_lt.2 hbad)

/-! ### The composition against the step -/

theorem unitsStep_of_request {r : Raise} (hpc : s.pc.toNat ≤ 255) (hk : kindAt s ≠ .unknown)
    (hreq : unitsRequest s = some (r.code, r.info)) : unitsStep s = takeFault r s.latched := by
  rw [unitsStep_eq_outcome, hreq, stepControl_fetchUnit hpc]
  exact unitsOutcome_fault (fetchUnit_latch (by omega)) r (.inl (controlOf_known hk))

theorem unitsStep_of_no_request {k : Kind} (hpc : s.pc.toNat ≤ 255) (hk : kindAt s = k)
    (hreq : unitsRequest s = none) : unitsStep s =
    unitsOutcome s (fetchUnit s.pc s.mem) (controlOf k) none := by
  rw [unitsStep_eq_outcome, hreq, stepControl_fetchUnit hpc, hk]

/-- Whatever case a step is, the units reach its state. -/
theorem StepCase.unitsStep_eq {t : State} (h : StepCase s t) (hpc : s.pc.toNat ≤ 256) : unitsStep s = t := by
  have hlatch := fetchUnit_latch hpc
  cases h with
  | offEnd hend =>
    have hpc256 : s.pc.toNat = 256 := by omega
    rw [unitsStep_eq_outcome, unitsRequest_of_pc_256 hpc256, hpc256]
    exact unitsOutcome_fault hlatch (.outOfBounds 256) (.inr (decide_eq_true hpc256))
  | skip hpc hk =>
    have hreq : unitsRequest s = none := unitsRequest_of_len_le hk (Nat.succ_le_succ hpc)
    rw [unitsStep_of_no_request hpc hk hreq, unitsOutcome_unknown hlatch (fetchUnit_irOob hpc), fetchUnit_ir hpc]
  | hlt hpc hk =>
    have hreq : unitsRequest s = none := unitsRequest_of_len_le hk (Nat.succ_le_succ hpc)
    rw [unitsStep_of_no_request hpc hk hreq, unitsOutcome_hlt hlatch]
  | noOperandA hpc hreg =>
    exact unitsStep_of_request hpc.le hreg.1 (unitsRequest_of_pc_255 hpc hreg)
  | noOperandB hpc hk =>
    refine unitsStep_of_request (by omega) ?_ (unitsRequest_of_pc_254 hpc hk)
    rcases hk with hk | hk <;> simp [hk]
  | badA hlen hreg hbad =>
    obtain ⟨-, -, hisReg⟩ := controlOf_of_takesRegister hreg
    have hpos := (kindAt s).len_pos
    exact unitsStep_of_request (by omega) hreg.1 ((unitsRequest_of_len_le rfl hlen).trans (if_pos ⟨hisReg, hbad⟩))
  | badB hpc hk ha hbad =>
    refine unitsStep_of_request (by omega) (by simp [hk]) ?_
    rw [unitsRequest_of_len_le hk (Nat.add_le_add_right hpc 3), if_neg (by omega), if_pos ⟨rfl, hbad⟩]
    rfl
  | pushFault hpc hk ha hsp =>
    have hreq := unitsRequest_of_registers hk (Nat.add_le_add_right hpc 2) ha nofun
    rw [stackRequest_push, if_pos hsp] at hreq
    exact unitsStep_of_request (by omega) (by simp [hk]) hreq
  | popFault hpc hk ha hsp =>
    have hreq := unitsRequest_of_registers hk (Nat.add_le_add_right hpc 2) ha nofun
    rw [stackRequest_pop, if_pos hsp] at hreq
    exact unitsStep_of_request (by omega) (by simp [hk]) hreq
  | popSpFault hpc hk ha hsp hpop =>
    have hreq := unitsRequest_of_registers hk (Nat.add_le_add_right hpc 2) (by omega) nofun
    have hseven : byteAt s 1 = 7#8 := BitVec.eq_of_toNat_eq ha
    rw [stackRequest_pop, if_neg (Nat.not_le.2 hsp), if_pos ⟨hseven, hpop⟩] at hreq
    exact unitsStep_of_request (by omega) (by simp [hk]) hreq
  | ldi i hpc hk ha =>
    have hreq : unitsRequest s = none :=
      unitsRequest_of_registers hk (Nat.add_le_add_right hpc 3) (ha ▸ i.isLt) nofun
    have hopa := fetchUnit_opa (s := s) (by omega)
    rw [unitsStep_of_no_request (by omega) hk hreq, unitsOutcome_ldi hlatch (hopa ▸ ha), fetchUnit_opb hpc]
  | prn i hpc hk ha =>
    have hreq : unitsRequest s = none :=
      unitsRequest_of_registers hk (Nat.add_le_add_right hpc 2) (ha ▸ i.isLt) nofun
    have hopa := fetchUnit_opa hpc
    rw [unitsStep_of_no_request (by omega) hk hreq, unitsOutcome_prn hlatch (hopa ▸ ha)]
  | mul i j hpc hk ha hb =>
    have hreq : unitsRequest s = none :=
      unitsRequest_of_registers hk (Nat.add_le_add_right hpc 3) (ha ▸ i.isLt) fun _ => hb ▸ j.isLt
    have hopa := fetchUnit_opa (s := s) (by omega)
    have hopb := fetchUnit_opb hpc
    rw [unitsStep_of_no_request (by omega) hk hreq, unitsOutcome_mul hlatch (hopa ▸ ha) (hopb ▸ hb)]
  | push i hpc hk ha hsp =>
    have hreq := unitsRequest_of_registers hk (Nat.add_le_add_right hpc 2) (ha ▸ i.isLt) nofun
    have hopa := fetchUnit_opa hpc
    rw [stackRequest_push, if_neg hsp] at hreq
    rw [unitsStep_of_no_request (by omega) hk hreq, unitsOutcome_push hlatch (hopa ▸ ha)]
  | pop i hpc hk ha hsp hpop =>
    have hreq := unitsRequest_of_registers hk (Nat.add_le_add_right hpc 2) (ha ▸ i.isLt) nofun
    have hopa := fetchUnit_opa hpc
    have hread : ¬ (byteAt s 1 = 7#8 ∧ Memory.read s.mem s.sp.toNat = 0xFF#8) := fun h =>
      hpop ((eq_seven_iff ha).1 h.1) h.2
    rw [stackRequest_pop, if_neg (Nat.not_le.2 hsp), if_neg hread] at hreq
    rw [unitsStep_of_no_request (by omega) hk hreq, unitsOutcome_pop hlatch (hopa ▸ ha)]

end

/-! ### The obligations -/

/-- Settles O45: reset needs no case; the load and the start are read off in each of the four other states. -/
theorem sequencerUnitFollowsTheCommands : Obligations.SequencerUnitFollowsTheCommands := by
  intro s image hrun himage
  refine ⟨rfl, ?_, ?_⟩
  · cases hs : s.status with
    | running => exact absurd hs hrun
    | idle => rw [command_load_idle hs himage]; rfl
    | _ => simp [command, hostLoad, hs, refuseCommand, sequencer]
  · cases hs : s.status with
    | running => exact absurd hs hrun
    | _ => simp [command, hostStart, hs, refuseCommand, sequencer]

/-- Settles O46: an image of 1 to 256 bytes loads, and the writes through the port store it from address 0 up. -/
theorem loadIsTheLoaderPortsWrites : Obligations.LoadIsTheLoaderPortsWrites := by
  intro s image hidle hpos hfit
  rw [command_load_idle hidle ((imageError_eq_none_iff image).2 ⟨hpos, hfit⟩),
    foldl_loaderPort hidle (by rwa [Nat.zero_add])]
  rfl

/-- Settles O47: each case of the step is what the units compute. -/
theorem theFiveUnitsComputeTheStep : Obligations.TheFiveUnitsComputeTheStep := by
  intro s hrun hpc
  obtain ⟨t, hstep, hcase⟩ := step_case hrun
  rw [hstep, hcase.unitsStep_eq hpc]

/-- Settles O26: codes 0 and 1 are the sum and the product, and the other two are unsupported. -/
theorem aluComputesAtItsPorts : Obligations.AluComputesAtItsPorts :=
  fun a b => ⟨⟨BitVec.toNat_ofNat .., rfl⟩, ⟨aluMul_toNat a b, rfl⟩, rfl, rfl⟩

/-- Settles O44: the truth table's row for each kind has that kind's columns. -/
theorem decoderUnitAgreesWithTheOpcodeMap : Obligations.DecoderUnitAgreesWithTheOpcodeMap := by
  intro ir
  rw [instructionDecoder_eq]
  cases kindOf ir <;> exact ⟨rfl, rfl, rfl, rfl⟩

end Sys2Proof.Machine

/-! Proofs of the exception family: which fault a Running step raises, read off the fault request line by line, and what
a faulting step leaves as it was. -/

namespace Sys2Proof.Machine

section
variable {s : State} {code : FaultCode} {info : PcWord}

/-! ### A step faults exactly where the units request a fault -/

theorem sequencerStep_status_ne_faulted {i : SequencerIn} {q : Sequencer} (hreq : i.faultReq = none)
    (hq : q.status = .running) : (sequencerStep i q).status ≠ .faulted := by
  rw [sequencerStep, hreq]
  cases i.halt with
  | true => exact Status.noConfusion
  | false => exact hq ▸ Status.noConfusion

/-- A Running step raises the fault the units request, and no other (R143, R169). -/
theorem faults_iff_unitsRequest (hrun : s.status = .running) (hpc : s.pc.toNat ≤ 256) :
    Faults s code info ↔ unitsRequest s = some (code, info) := by
  have hstep := theFiveUnitsComputeTheStep s hrun hpc
  constructor
  · rintro ⟨t, ht, hst, hfault⟩
    obtain rfl : unitsStep s = t := Host.Outcome.next.inj (hstep.symm.trans ht)
    rw [unitsStep_eq_outcome] at hst hfault
    cases hreq : unitsRequest s with
    | none =>
      rw [hreq] at hst
      exact absurd hst (sequencerStep_status_ne_faulted rfl hrun)
    | some req =>
      rw [hreq] at hfault
      obtain ⟨hcode, -, hinfo⟩ := FaultRecord.mk.inj hfault
      rw [← hcode, ← hinfo]
  · intro hreq
    refine ⟨_, hstep, ?_, ?_⟩ <;> rw [unitsStep_eq_outcome, hreq] <;> rfl

/-! ### The request, code by code -/

/-- An instruction's bytes run past the end of memory in the three cases of R161. -/
theorem lt_pc_add_len_iff (hpc : s.pc.toNat ≤ 256) :
    256 < s.pc.toNat + (kindAt s).len ↔
      s.pc.toNat = 256 ∨ (s.pc.toNat = 255 ∧ takesRegister (kindAt s)) ∨
        (s.pc.toNat = 254 ∧ (kindAt s = .ldi ∨ kindAt s = .mul)) := by
  cases kindAt s <;> simp [Kind.len, Kind.nOps, Format.nOps, takesRegister] <;> omega

/-- The bounds checks come first and ask for address 256, the first past memory (R75, R161). -/
theorem unitsRequest_of_len_gt (hpc : s.pc.toNat ≤ 256) (hlen : 256 < s.pc.toNat + (kindAt s).len) :
    unitsRequest s = some (.outOfBounds, 256#9) := by
  rcases (lt_pc_add_len_iff hpc).1 hlen with h256 | ⟨h255, hreg⟩ | ⟨h254, hk⟩
  · exact unitsRequest_of_pc_256 h256
  · exact unitsRequest_of_pc_255 h255 hreg
  · exact unitsRequest_of_pc_254 h254 hk

theorem controlOf_aIsReg_iff {k : Kind} : (controlOf k).aIsReg = true ↔ takesRegister k := by
  cases k <;> simp [controlOf, controlUnknown, takesRegister]

/-- Which fault the units request at `s`, and when: the lines of R143, each after those above it. -/
inductive RequestCase (s : State) : Option (FaultCode × PcWord) → Prop where
  | outside : 256 < s.pc.toNat + (kindAt s).len → RequestCase s (some (.outOfBounds, 256#9))
  | badA : s.pc.toNat + (kindAt s).len ≤ 256 → takesRegister (kindAt s) → 8 ≤ (byteAt s 1).toNat →
      RequestCase s (some (.invalidRegister, (byteAt s 1).setWidth 9))
  | badB : s.pc.toNat + (kindAt s).len ≤ 256 → kindAt s = .mul → (byteAt s 1).toNat ≤ 7 → 8 ≤ (byteAt s 2).toNat →
      RequestCase s (some (.invalidRegister, (byteAt s 2).setWidth 9))
  | stack : s.pc.toNat + (kindAt s).len ≤ 256 → (takesRegister (kindAt s) → (byteAt s 1).toNat ≤ 7) →
      (kindAt s = .mul → (byteAt s 2).toNat ≤ 7) → RequestCase s (stackRequest s (controlOf (kindAt s)))

theorem unitsRequest_case (hpc : s.pc.toNat ≤ 256) : RequestCase s (unitsRequest s) := by
  rcases Nat.lt_or_ge 256 (s.pc.toNat + (kindAt s).len) with hlen | hlen
  · rw [unitsRequest_of_len_gt hpc hlen]
    exact .outside hlen
  · rw [unitsRequest_of_len_le rfl hlen]
    split_ifs with ha hb
    · exact .badA hlen (controlOf_aIsReg_iff.1 ha.1) ha.2
    · have hk := controlOf_bIsReg hb.1
      have hisReg : (controlOf (kindAt s)).aIsReg = true := by rw [hk]; rfl
      exact .badB hlen hk (Nat.le_of_not_lt fun hbad => ha ⟨hisReg, hbad⟩) hb.2
    · exact .stack hlen (fun hreg => Nat.le_of_not_lt fun hbad => ha ⟨controlOf_aIsReg_iff.2 hreg, hbad⟩)
        fun hk => Nat.le_of_not_lt fun hbad => hb ⟨by rw [hk]; rfl, hbad⟩

theorem stackRequest_code {c : ControlWord} (h : stackRequest s c = some (code, info)) : code = .stackFault := by
  rw [stackRequest] at h
  split_ifs at h <;> exact (Prod.mk.inj (Option.some.inj h)).1.symm

/-- Only PUSH and POP move the stack pointer. -/
theorem stackRequest_kind {k : Kind} {req : FaultCode × PcWord} (h : stackRequest s (controlOf k) = some req) :
    k = .push ∨ k = .pop := by
  cases k with
  | push => exact .inl rfl
  | pop => exact .inr rfl
  | _ => exact nomatch h

theorem stackRequest_iff {k : Kind} :
    stackRequest s (controlOf k) = some (.stackFault, info) ↔
      (k = .push ∧ s.sp = 0x00#8 ∧ info = 0#9) ∨
      (k = .pop ∧ 244 ≤ s.sp.toNat ∧ info = s.sp.setWidth 9) ∨
      (k = .pop ∧ s.sp.toNat < 244 ∧ byteAt s 1 = 7#8 ∧ Memory.read s.mem s.sp.toNat = 0xFF#8 ∧ info = 255#9) := by
  cases k with
  | push => simp [stackRequest_push, eq_comm (b := info)]
  | pop =>
    rw [stackRequest_pop]
    split_ifs with hsp hread
    · simp [hsp, Nat.not_lt.2 hsp, eq_comm (b := info)]
    · simp [hsp, Nat.not_le.1 hsp, hread, eq_comm (b := info)]
    · simp [hsp, ← and_assoc, hread]
  | _ => simp [stackRequest, controlOf, controlUnknown]

variable {q : Option (FaultCode × PcWord)}

theorem RequestCase.outOfBounds_iff (h : RequestCase s q) :
    q = some (.outOfBounds, info) ↔ 256 < s.pc.toNat + (kindAt s).len ∧ info = 256#9 := by
  cases h with
  | outside hlen => simp [hlen, eq_comm (b := info)]
  | badA hlen | badB hlen => simp [Nat.not_lt.2 hlen]
  | stack hlen =>
    exact iff_of_false (fun h => FaultCode.noConfusion (stackRequest_code h)) fun h => absurd h.1 (Nat.not_lt.2 hlen)

theorem RequestCase.invalidRegister_iff (h : RequestCase s q) :
    q = some (.invalidRegister, info) ↔
      s.pc.toNat + (kindAt s).len ≤ 256 ∧
        ((takesRegister (kindAt s) ∧ 8 ≤ (byteAt s 1).toNat ∧ info = (byteAt s 1).setWidth 9) ∨
         (kindAt s = .mul ∧ (byteAt s 1).toNat ≤ 7 ∧ 8 ≤ (byteAt s 2).toNat ∧ info = (byteAt s 2).setWidth 9)) := by
  cases h with
  | outside hlen => simp [Nat.not_le.2 hlen]
  | badA hlen hreg ha =>
    have hnot : ¬ (byteAt s 1).toNat ≤ 7 := by omega
    simp [hlen, hreg, ha, hnot, eq_comm (b := info)]
  | badB hlen hk ha hb =>
    have hnot : ¬ 8 ≤ (byteAt s 1).toNat := by omega
    rw [hk] at hlen ⊢
    simp [hlen, ha, hb, hnot, eq_comm (b := info)]
  | stack hlen ha hb =>
    refine iff_of_false (fun h => FaultCode.noConfusion (stackRequest_code h)) ?_
    rintro ⟨-, ⟨hreg, hbad, -⟩ | ⟨hk, -, hbad, -⟩⟩
    · exact absurd (ha hreg) (Nat.not_le.2 hbad)
    · exact absurd (hb hk) (Nat.not_le.2 hbad)

theorem RequestCase.stackFault_iff (h : RequestCase s q) :
    q = some (.stackFault, info) ↔
      s.pc.toNat ≤ 254 ∧ (byteAt s 1).toNat ≤ 7 ∧
        stackRequest s (controlOf (kindAt s)) = some (.stackFault, info) := by
  have hkind (hstack : stackRequest s (controlOf (kindAt s)) = some (.stackFault, info)) :
      takesRegister (kindAt s) ∧ kindAt s ≠ .mul ∧ (kindAt s).len = 2 := by
    rcases stackRequest_kind hstack with hk | hk <;> rw [hk] <;> simp [takesRegister] <;> rfl
  cases h with
  | outside hlen =>
    refine iff_of_false (by simp) ?_
    rintro ⟨hpc, -, hstack⟩
    obtain ⟨-, -, htwo⟩ := hkind hstack
    omega
  | badA _ _ hbad => exact iff_of_false (by simp) fun h => absurd h.2.1 (Nat.not_le.2 hbad)
  | badB _ hk => exact iff_of_false (by simp) fun h => (hkind h.2.2).2.1 hk
  | stack hlen ha =>
    refine ⟨fun hstack => ?_, fun h => h.2.2⟩
    obtain ⟨hreg, -, htwo⟩ := hkind hstack
    exact ⟨by omega, ha hreg, hstack⟩

end

/-! ### The obligations -/

/-- Settles O28: a request for OutOfBounds always names address 256, and an instruction runs past the end of memory in
the three cases of the statement. -/
theorem outOfBoundsExactlyInFetch : Obligations.OutOfBoundsExactlyInFetch := by
  intro s hrun hpc
  simp only [faults_iff_unitsRequest hrun hpc, (unitsRequest_case hpc).outOfBounds_iff, ← lt_pc_add_len_iff hpc,
    exists_eq_right, and_true, and_self]

/-- Settles O29: the two register lines of the request, after the bounds checks. -/
theorem invalidRegisterExactlyAboveSeven : Obligations.InvalidRegisterExactlyAboveSeven :=
  fun _ _ hrun hpc => (faults_iff_unitsRequest hrun hpc).trans (unitsRequest_case hpc).invalidRegister_iff

/-- Settles O31: the three stack lines of the request, after the bounds checks and the registers. -/
theorem stackFaultExactlyAtTheBounds : Obligations.StackFaultExactlyAtTheBounds := by
  intro s info hrun hpc
  rw [faults_iff_unitsRequest hrun hpc, (unitsRequest_case hpc).stackFault_iff, stackRequest_iff]

theorem aluApply_unsupported {op : BitVec 2} (hop : 2 ≤ op.toNat) (a b : Byte) :
    aluApply op a b = .error (.unsupportedOperation op) := by
  have hadd : op ≠ aluOpAdd := by rintro rfl; exact absurd hop (by decide)
  have hmul : op ≠ aluOpMul := by rintro rfl; exact absurd hop (by decide)
  simp only [aluApply, alu, if_neg hadd, if_neg hmul, if_true]

/-- Settles O32: codes 2 and 3 are neither ADD nor MUL, and a Running step takes other faults only. -/
theorem unsupportedOperationIsUnreachable : Obligations.UnsupportedOperationIsUnreachable := by
  refine ⟨fun op a b hop => aluApply_unsupported hop a b, fun _ => rfl, ?_⟩
  rintro s info hrun ⟨t, hstep, hst, hfault⟩
  rcases (step_next_case hrun hstep).faults_or_completes hrun with ⟨r, hcode, rfl⟩ | ⟨hlive, -⟩
  · exact hcode (congrArg FaultRecord.code hfault)
  · simp [hst] at hlive

/-- Settles O33: a step that ends Faulted took a fault, which keeps all but the lifecycle state, the record and the
latches; a Faulted machine then stands still. -/
theorem aFaultingStepHasNoPartialEffect : Obligations.AFaultingStepHasNoPartialEffect := by
  intro s t hrun hstep hst
  rcases (step_next_case hrun hstep).faults_or_completes hrun with ⟨r, -, rfl⟩ | ⟨hlive, -⟩
  · exact ⟨fun _ => rfl, fun _ => rfl, rfl, ⟨rfl, rfl⟩, rfl, r.code_ne_noFault, rfl, step_terminal (.inr hst)⟩
  · simp [hst] at hlive

end Sys2Proof.Machine

/-! Proofs of the family of reset and hazards: what each host command answers, in the states that take it and in those
that do not. -/

namespace Sys2Proof.Machine

section
variable {s : State} {image : List Byte}

/-! ### The answer to a load and to a start -/

theorem command_load_of_not_idle (source : LoadSource) (h : s.status ≠ .idle) :
    command (.load source) s = { state := s, response := .stateError } := by
  cases hs : s.status with
  | idle => exact absurd hs h
  | _ => simp only [command, hostLoad, hs, refuseCommand]

theorem command_load_unreadable_idle (hidle : s.status = .idle) :
    command (.load .unreadable) s = { state := s, response := .loadError .sourceNotFound } := by
  simp only [command, hostLoad, hidle, loadIdle]

/-- An image that cannot be loaded is not loaded in part (R192). -/
theorem command_load_idle_error {e : LoadError} (hidle : s.status = .idle) (he : imageError image = some e) :
    command (.load (.bytes image)) s = { state := s, response := .loadError e } := by
  simp only [command, hostLoad, hidle, loadIdle, he]

theorem imageError_eq_some (h : image.length = 0 ∨ 256 < image.length) : ∃ e, imageError image = some e := by
  refine Option.ne_none_iff_exists'.1 fun hnone => ?_
  obtain ⟨h1, h256⟩ := (imageError_eq_none_iff image).1 hnone
  omega

theorem command_start_loaded (hloaded : s.status = .loaded) :
    command .start s = { state := { s with status := .running }, response := .accepted } := by
  simp only [command, hostStart, hloaded]

theorem command_start_of_not_loaded (h : s.status ≠ .loaded) :
    command .start s = { state := s, response := .stateError } := by
  cases hs : s.status with
  | loaded => exact absurd hs h
  | _ => simp only [command, hostStart, hs, refuseCommand]

/-- A terminal machine is neither Idle nor Loaded, so it takes no load and no start (R194). -/
theorem command_of_terminal {c : Command} (hs : Terminal s) (hc : c ≠ .reset) :
    command c s = { state := s, response := .stateError } := by
  have hlive : s.status ≠ .idle ∧ s.status ≠ .loaded := by rcases hs with h | h <;> simp [h]
  obtain ⟨hidle, hloaded⟩ := hlive
  cases c with
  | reset => exact absurd rfl hc
  | load source => exact command_load_of_not_idle source hidle
  | start => exact command_start_of_not_loaded hloaded

end

/-! ### The obligations -/

/-- Settles O3: an Idle machine that meets the invariant is the reset machine, whose memory is the image and nothing else
after a load; an image of another length has a load error, and a state other than Idle takes no load. -/
theorem loadIsAllOrNothing : Obligations.LoadIsAllOrNothing := by
  intro s hinv
  refine ⟨fun image hidle h1 h256 => ?_, fun image hidle hlen => ?_, command_load_unreadable_idle,
    command_load_of_not_idle⟩
  · have hload := command_load_idle hidle ((imageError_eq_none_iff image).2 ⟨h1, h256⟩)
    obtain rfl := hinv.idle_reset hidle
    have hread := read_loadImage_reset h256
    exact ⟨loadImage image State.reset, hload, rfl, fun k _ => hread k,
      fun a ha => (hread a).trans (List.getD_eq_default image _ ha), fun _ => rfl, rfl, rfl, rfl, rfl, rfl⟩
  · obtain ⟨e, he⟩ := imageError_eq_some hlen
    exact ⟨e, command_load_idle_error hidle he⟩

/-- Settles O2: reset looks at no state, and a terminal machine takes no step, no load and no start. -/
theorem onlyResetLeavesATerminalState : Obligations.OnlyResetLeavesATerminalState :=
  ⟨fun _ => rfl, fun _ hs => ⟨step_terminal hs, fun _ hc => command_of_terminal hs hc⟩⟩

/-- Settles O4: the invariant keeps a Loaded machine fresh, with `pc` and the registers as reset left them. -/
theorem startRunsALoadedMachine : Obligations.StartRunsALoadedMachine := by
  intro s hloaded
  refine ⟨command_start_loaded hloaded, fun hinv => ?_⟩
  obtain ⟨⟨hregs, hpc, -⟩, -⟩ := hinv.loaded_fresh hloaded
  exact ⟨hpc, fun j => by rw [State.reg, State.reg, hregs]⟩

/-- Settles O5: Loaded alone takes a start, and Idle alone takes a load. -/
theorem misplacedCommandsAreRefused : Obligations.MisplacedCommandsAreRefused :=
  fun _ => ⟨command_start_of_not_loaded, command_load_of_not_idle⟩

end Sys2Proof.Machine
